-- ==== Sys2Proof/Word.lean ====
section
/-! DEFINITION. The word types: bytes, 16-bit words, the operand-field types and register indices
(spec/00_scope.md R6, R9; spec/30_encoding.md R81). -/

namespace Sys2Proof

/-- A u8: a V register, a timer, a memory cell, an immediate `kk`. -/
abbrev Byte := BitVec 8

/-- A u16: I, PC, a call-stack entry, an opcode (R6). -/
abbrev Word := BitVec 16

/-- A 4-bit slice of an opcode (R10). -/
abbrev Nibble := BitVec 4

/-- A u12: the operand field `nnn` (R81). -/
abbrev Addr12 := BitVec 12

/-- A register index 0x0..0xF: the operand fields `x` and `y` (R30, R81). -/
abbrev Reg := Fin 16

/-- The index of VF, the register that is also the flag (R31). -/
def regF : Reg := 15

end Sys2Proof
end

