-- ==== Sys2Proof/Config.lean ====
section
/-! DEFINITION. What the spec leaves open: the parameters a model takes as arguments
(spec/00_scope.md R8) and the one free value, the random byte (R15, R24; 93_implementation_defined.md U11). -/

namespace Sys2Proof

/-- DECODE_MODE (R8, R83 to R90; decision D11). -/
inductive DecodeMode
  /-- Decode by exactly the keys the source states; other bits are not examined. -/
  | docKeys
  /-- Decode only the canonical patterns of R89. -/
  | canonicalOnly
deriving DecidableEq, Repr

/-- VF_ALIAS_ORDER (R8, R140; decision D8). -/
inductive VfAliasOrder
  /-- VF receives the flag, then Vx the result sampled before any write. -/
  | resultLast
  /-- Vx receives the result, then VF the flag. -/
  | flagLast
  /-- VF receives the flag, then the result is computed again from the registers as they stand. -/
  | sequential
deriving DecidableEq, Repr

/-- MEM_OOB (R8, R62; decision D4): a byte address of 0x1000 or more. -/
inductive MemOob
  | fault
  | wrap
deriving DecidableEq, Repr

/-- KEY_OOB (R8, R193; decision D10): a key index above 0xF. -/
inductive KeyOob
  | fault
  | mask
deriving DecidableEq, Repr

/-- FONT_TABLE (R8, R43; decision D18): 16 glyphs of 5 bytes. -/
abbrev FontTable := Vector Byte 80

/-- The open parameters of R8. The model takes them as an argument by holding them in State, where
nothing writes them (log 1); RNG, the sixth, is `Config.freeRandByte` and the RAND port (log 3). -/
structure Params where
  decodeMode   : DecodeMode
  vfAliasOrder : VfAliasOrder
  memOob       : MemOob
  keyOob       : KeyOob
  fontTable    : FontTable
deriving DecidableEq, Repr

/-- MEM_SIZE (R6). -/
abbrev Config.memSize : Nat := 4096

/-- FONT_BASE (R6). -/
abbrev Config.fontBase : Nat := 0x050

/-- FONT_SIZE (R6). -/
abbrev Config.fontSize : Nat := 80

/-- GLYPH_BYTES (R6). -/
abbrev Config.glyphBytes : Nat := 5

/-- PROG_BASE (R6, R36). -/
abbrev Config.progBase : Nat := 0x200

/-- PROG_MAX (R6, R274). -/
abbrev Config.progMax : Nat := 3584

/-- FREE VALUE (log 3): the byte the RAND port gives for the draw of this number when the host has
injected none. Any of 0..255, under no law (R15, R162). It has no body: no proof can see its value. -/
opaque Config.freeRandByte : Nat → Byte

end Sys2Proof
end

