-- ==== Sys2Proof/Syntax.lean ====
section
/-! DEFINITION. The 34 instructions, one constructor per row of spec/opcode_table.json
(spec/30_encoding.md R91, R102). A constructor holds every operand field its rule names and, where
DOC_KEYS or the instruction ignores bits of the word, those bits too (log 6): the whole 16-bit word can be
read back from an instruction, as the fault record needs (R48). -/

namespace Sys2Proof

inductive Instr
  /-- 00E0 CLS; `xy` is bits 11..4, ignored under DOC_KEYS (R84, R170). -/
  | cls (xy : Byte)
  /-- 00EE RET; `xy` is bits 11..4, ignored under DOC_KEYS (R84, R112). -/
  | ret (xy : Byte)
  /-- 1nnn JP nnn (R110). -/
  | jp (nnn : Addr12)
  /-- 2nnn CALL nnn (R111). -/
  | call (nnn : Addr12)
  /-- 3xkk SE Vx, kk (R113). -/
  | seImm (x : Reg) (kk : Byte)
  /-- 4xkk SNE Vx, kk (R114). -/
  | sneImm (x : Reg) (kk : Byte)
  /-- 5xy0 SE Vx, Vy; `n` is bits 3..0, ignored under DOC_KEYS (R83, R115). -/
  | seReg (x y : Reg) (n : Nibble)
  /-- 6xkk LD Vx, kk (R130). -/
  | ldImm (x : Reg) (kk : Byte)
  /-- 7xkk ADD Vx, kk (R131). -/
  | addImm (x : Reg) (kk : Byte)
  /-- 8xy0 LD Vx, Vy (R132). -/
  | ldReg (x y : Reg)
  /-- 8xy1 OR Vx, Vy (R133). -/
  | orReg (x y : Reg)
  /-- 8xy2 AND Vx, Vy (R134). -/
  | andReg (x y : Reg)
  /-- 8xy3 XOR Vx, Vy (R135). -/
  | xorReg (x y : Reg)
  /-- 8xy4 ADD Vx, Vy (R144). -/
  | addReg (x y : Reg)
  /-- 8xy5 SUB Vx, Vy (R145). -/
  | sub (x y : Reg)
  /-- 8xy6 SHR Vx; `y` is encoded and ignored (R150). -/
  | shr (x y : Reg)
  /-- 8xy7 SUBN Vx, Vy (R146). -/
  | subn (x y : Reg)
  /-- 8xyE SHL Vx; `y` is encoded and ignored (R151). -/
  | shl (x y : Reg)
  /-- 9xy0 SNE Vx, Vy; `n` is bits 3..0, ignored under DOC_KEYS (R83, R116). -/
  | sneReg (x y : Reg) (n : Nibble)
  /-- Annn LD I, nnn (R160). -/
  | ldI (nnn : Addr12)
  /-- Bnnn JP V0, nnn (R161). -/
  | jpV0 (nnn : Addr12)
  /-- Cxkk RND Vx, kk (R162). -/
  | rnd (x : Reg) (kk : Byte)
  /-- Dxyn DRW Vx, Vy, n (R171). -/
  | drw (x y : Reg) (n : Nibble)
  /-- Ex9E SKP Vx; `n` is bits 3..0, ignored under DOC_KEYS (R86, R190). -/
  | skp (x : Reg) (n : Nibble)
  /-- ExA1 SKNP Vx; `n` is bits 3..0, ignored under DOC_KEYS (R86, R191). -/
  | sknp (x : Reg) (n : Nibble)
  /-- Fx07 LD Vx, DT (R200). -/
  | ldVxDt (x : Reg)
  /-- Fx0A LD Vx, K (R192). -/
  | ldVxK (x : Reg)
  /-- Fx15 LD DT, Vx (R201). -/
  | ldDtVx (x : Reg)
  /-- Fx18 LD ST, Vx (R202). -/
  | ldStVx (x : Reg)
  /-- Fx1E ADD I, Vx (R203). -/
  | addI (x : Reg)
  /-- Fx29 LD F, Vx (R204). -/
  | ldF (x : Reg)
  /-- Fx33 LD B, Vx (R205). -/
  | ldB (x : Reg)
  /-- Fx55 LD [I], Vx (R208). -/
  | ldMemVx (x : Reg)
  /-- Fx65 LD Vx, [I] (R209). -/
  | ldVxMem (x : Reg)
deriving DecidableEq, Repr

end Sys2Proof
end

