-- ==== Sys2Proof/WellFormed.lean ====
section
/-! DEFINITION. Which instructions a decode mode admits (spec/30_encoding.md R83, R84, R86, R89). The field
types already bound every operand; what is left to check is that, under CANONICAL_ONLY, the bits a wide key
ignores are the canonical ones. -/

namespace Sys2Proof

/-- The ignored bits are those of the canonical pattern of R89. -/
def Instr.canonical : Instr → Bool
  | .cls xy        => xy == 0x0E#8
  | .ret xy        => xy == 0x0E#8
  | .jp _          => true
  | .call _        => true
  | .seImm _ _     => true
  | .sneImm _ _    => true
  | .seReg _ _ n   => n == 0x0#4
  | .ldImm _ _     => true
  | .addImm _ _    => true
  | .ldReg _ _     => true
  | .orReg _ _     => true
  | .andReg _ _    => true
  | .xorReg _ _    => true
  | .addReg _ _    => true
  | .sub _ _       => true
  | .shr _ _       => true
  | .subn _ _      => true
  | .shl _ _       => true
  | .sneReg _ _ n  => n == 0x0#4
  | .ldI _         => true
  | .jpV0 _        => true
  | .rnd _ _       => true
  | .drw _ _ _     => true
  | .skp _ n       => n == 0xE#4
  | .sknp _ n      => n == 0x1#4
  | .ldVxDt _      => true
  | .ldVxK _       => true
  | .ldDtVx _      => true
  | .ldStVx _      => true
  | .addI _        => true
  | .ldF _         => true
  | .ldB _         => true
  | .ldMemVx _     => true
  | .ldVxMem _     => true

/-- An instruction some word stands for in the given mode: any under DOC_KEYS, the canonical ones under
CANONICAL_ONLY (R89). -/
def Instr.wellFormed (m : DecodeMode) (i : Instr) : Bool :=
  match m with
  | .docKeys => true
  | .canonicalOnly => i.canonical

end Sys2Proof
end

