-- ==== Sys2Proof/Decode.lean ====
section
/-! DEFINITION. The two-level decoder (spec/30_encoding.md R83 to R90), total on every word and every byte
string, rejecting by name; after it the encoder, written from the encoding column of spec/opcode_table.json,
and the table's match and mask columns. -/

namespace Sys2Proof

/-- Why bytes are not an instruction. -/
inductive DecodeError
  /-- Fewer than the two bytes an instruction has (R80). -/
  | truncated
  /-- The word has no handler (R88): the machine takes the UnknownOpcode fault. -/
  | unknownOpcode (op : Word)
deriving DecidableEq, Repr

/-! ## Operand fields (R81) -/

/-- `t`, bits 15..12. -/
def fieldT (op : Word) : Nibble := op.extractLsb' 12 4

/-- `x`, bits 11..8, a register index. -/
def fieldX (op : Word) : Reg := (op.extractLsb' 8 4).toFin

/-- Bits 7..4 as a nibble: the key of the E family (R86). -/
def fieldYKey (op : Word) : Nibble := op.extractLsb' 4 4

/-- `y`, bits 7..4, a register index. -/
def fieldY (op : Word) : Reg := (fieldYKey op).toFin

/-- `n`, bits 3..0. -/
def fieldN (op : Word) : Nibble := op.extractLsb' 0 4

/-- `kk`, bits 7..0. -/
def fieldKK (op : Word) : Byte := op.extractLsb' 0 8

/-- `nnn`, bits 11..0. -/
def fieldNNN (op : Word) : Addr12 := op.extractLsb' 0 12

/-- Bits 11..4, which the 0 family ignores under DOC_KEYS (R84). -/
def fieldXY (op : Word) : Byte := op.extractLsb' 4 8

/-! ## The decoder -/

/-- 0 family: keyed on the low nibble (R84). -/
def decode0 (op : Word) : Except DecodeError Instr :=
  if fieldN op = 0x0#4 then .ok (.cls (fieldXY op))
  else if fieldN op = 0xE#4 then .ok (.ret (fieldXY op))
  else .error (.unknownOpcode op)

/-- 8 family: keyed on the low nibble (R85). -/
def decode8 (op : Word) : Except DecodeError Instr :=
  if fieldN op = 0x0#4 then .ok (.ldReg (fieldX op) (fieldY op))
  else if fieldN op = 0x1#4 then .ok (.orReg (fieldX op) (fieldY op))
  else if fieldN op = 0x2#4 then .ok (.andReg (fieldX op) (fieldY op))
  else if fieldN op = 0x3#4 then .ok (.xorReg (fieldX op) (fieldY op))
  else if fieldN op = 0x4#4 then .ok (.addReg (fieldX op) (fieldY op))
  else if fieldN op = 0x5#4 then .ok (.sub (fieldX op) (fieldY op))
  else if fieldN op = 0x6#4 then .ok (.shr (fieldX op) (fieldY op))
  else if fieldN op = 0x7#4 then .ok (.subn (fieldX op) (fieldY op))
  else if fieldN op = 0xE#4 then .ok (.shl (fieldX op) (fieldY op))
  else .error (.unknownOpcode op)

/-- E family: keyed on bits 7..4 (R86). -/
def decodeE (op : Word) : Except DecodeError Instr :=
  if fieldYKey op = 0x9#4 then .ok (.skp (fieldX op) (fieldN op))
  else if fieldYKey op = 0xA#4 then .ok (.sknp (fieldX op) (fieldN op))
  else .error (.unknownOpcode op)

/-- F family: keyed on the low byte (R87). -/
def decodeF (op : Word) : Except DecodeError Instr :=
  if fieldKK op = 0x07#8 then .ok (.ldVxDt (fieldX op))
  else if fieldKK op = 0x0A#8 then .ok (.ldVxK (fieldX op))
  else if fieldKK op = 0x15#8 then .ok (.ldDtVx (fieldX op))
  else if fieldKK op = 0x18#8 then .ok (.ldStVx (fieldX op))
  else if fieldKK op = 0x1E#8 then .ok (.addI (fieldX op))
  else if fieldKK op = 0x29#8 then .ok (.ldF (fieldX op))
  else if fieldKK op = 0x33#8 then .ok (.ldB (fieldX op))
  else if fieldKK op = 0x55#8 then .ok (.ldMemVx (fieldX op))
  else if fieldKK op = 0x65#8 then .ok (.ldVxMem (fieldX op))
  else .error (.unknownOpcode op)

/-- Primary dispatch on the top nibble (R83), under DOC_KEYS. -/
def decodeDocKeys (op : Word) : Except DecodeError Instr :=
  if fieldT op = 0x0#4 then decode0 op
  else if fieldT op = 0x1#4 then .ok (.jp (fieldNNN op))
  else if fieldT op = 0x2#4 then .ok (.call (fieldNNN op))
  else if fieldT op = 0x3#4 then .ok (.seImm (fieldX op) (fieldKK op))
  else if fieldT op = 0x4#4 then .ok (.sneImm (fieldX op) (fieldKK op))
  else if fieldT op = 0x5#4 then .ok (.seReg (fieldX op) (fieldY op) (fieldN op))
  else if fieldT op = 0x6#4 then .ok (.ldImm (fieldX op) (fieldKK op))
  else if fieldT op = 0x7#4 then .ok (.addImm (fieldX op) (fieldKK op))
  else if fieldT op = 0x8#4 then decode8 op
  else if fieldT op = 0x9#4 then .ok (.sneReg (fieldX op) (fieldY op) (fieldN op))
  else if fieldT op = 0xA#4 then .ok (.ldI (fieldNNN op))
  else if fieldT op = 0xB#4 then .ok (.jpV0 (fieldNNN op))
  else if fieldT op = 0xC#4 then .ok (.rnd (fieldX op) (fieldKK op))
  else if fieldT op = 0xD#4 then .ok (.drw (fieldX op) (fieldY op) (fieldN op))
  else if fieldT op = 0xE#4 then decodeE op
  else decodeF op

/-- The decode function of R90. CANONICAL_ONLY refuses exactly the words that DOC_KEYS decodes by its wider
keys (R89). -/
def decode (m : DecodeMode) (op : Word) : Except DecodeError Instr :=
  match decodeDocKeys op with
  | .error e => .error e
  | .ok i => if i.wellFormed m then .ok i else .error (.unknownOpcode op)

/-- The opcode two bytes make, the first byte supplying bits 15..8 (R63, R96). -/
def wordOfBytes (hi lo : Byte) : Word := hi ++ lo

/-- The instruction at the front of a byte string, and the bytes after it: two bytes, big-endian (R63, R80). -/
def decodeBytes (m : DecodeMode) : List Byte → Except DecodeError (Instr × List Byte)
  | hi :: lo :: rest =>
    match decode m (wordOfBytes hi lo) with
    | .ok i => .ok (i, rest)
    | .error e => .error e
  | [_] => .error .truncated
  | [] => .error .truncated

/-! ## The encoder -/

/-- A register index as the nibble that encodes it. -/
def regNibble (x : Reg) : Nibble := BitVec.ofFin x

/-- The word of an instruction: the "encoding" column of spec/opcode_table.json, the ignored bits as the
constructor holds them. -/
def encode : Instr → Word
  | .cls xy       => 0x0#4 ++ xy ++ 0x0#4
  | .ret xy       => 0x0#4 ++ xy ++ 0xE#4
  | .jp nnn       => 0x1#4 ++ nnn
  | .call nnn     => 0x2#4 ++ nnn
  | .seImm x kk   => 0x3#4 ++ regNibble x ++ kk
  | .sneImm x kk  => 0x4#4 ++ regNibble x ++ kk
  | .seReg x y n  => 0x5#4 ++ regNibble x ++ regNibble y ++ n
  | .ldImm x kk   => 0x6#4 ++ regNibble x ++ kk
  | .addImm x kk  => 0x7#4 ++ regNibble x ++ kk
  | .ldReg x y    => 0x8#4 ++ regNibble x ++ regNibble y ++ 0x0#4
  | .orReg x y    => 0x8#4 ++ regNibble x ++ regNibble y ++ 0x1#4
  | .andReg x y   => 0x8#4 ++ regNibble x ++ regNibble y ++ 0x2#4
  | .xorReg x y   => 0x8#4 ++ regNibble x ++ regNibble y ++ 0x3#4
  | .addReg x y   => 0x8#4 ++ regNibble x ++ regNibble y ++ 0x4#4
  | .sub x y      => 0x8#4 ++ regNibble x ++ regNibble y ++ 0x5#4
  | .shr x y      => 0x8#4 ++ regNibble x ++ regNibble y ++ 0x6#4
  | .subn x y     => 0x8#4 ++ regNibble x ++ regNibble y ++ 0x7#4
  | .shl x y      => 0x8#4 ++ regNibble x ++ regNibble y ++ 0xE#4
  | .sneReg x y n => 0x9#4 ++ regNibble x ++ regNibble y ++ n
  | .ldI nnn      => 0xA#4 ++ nnn
  | .jpV0 nnn     => 0xB#4 ++ nnn
  | .rnd x kk     => 0xC#4 ++ regNibble x ++ kk
  | .drw x y n    => 0xD#4 ++ regNibble x ++ regNibble y ++ n
  | .skp x n      => 0xE#4 ++ regNibble x ++ 0x9#4 ++ n
  | .sknp x n     => 0xE#4 ++ regNibble x ++ 0xA#4 ++ n
  | .ldVxDt x     => 0xF#4 ++ regNibble x ++ 0x07#8
  | .ldVxK x      => 0xF#4 ++ regNibble x ++ 0x0A#8
  | .ldDtVx x     => 0xF#4 ++ regNibble x ++ 0x15#8
  | .ldStVx x     => 0xF#4 ++ regNibble x ++ 0x18#8
  | .addI x       => 0xF#4 ++ regNibble x ++ 0x1E#8
  | .ldF x        => 0xF#4 ++ regNibble x ++ 0x29#8
  | .ldB x        => 0xF#4 ++ regNibble x ++ 0x33#8
  | .ldMemVx x    => 0xF#4 ++ regNibble x ++ 0x55#8
  | .ldVxMem x    => 0xF#4 ++ regNibble x ++ 0x65#8

/-- The bytes of an instruction in memory order, high byte first (R63). -/
def encodeBytes (i : Instr) : List Byte :=
  [(encode i).extractLsb' 8 8, (encode i).extractLsb' 0 8]

/-! ## The opcode table -/

/-- The match and mask columns of a row of spec/opcode_table.json, for each decode mode (R91). -/
structure OpcodeRow where
  bits          : Word
  mask          : Word
  canonicalBits : Word
  canonicalMask : Word
deriving DecidableEq, Repr

/-- A row whose canonical pattern is its DOC_KEYS pattern. -/
def OpcodeRow.plain (bits mask : Word) : OpcodeRow := ⟨bits, mask, bits, mask⟩

/-- Does the word fit the row in the given mode? -/
def OpcodeRow.fits (r : OpcodeRow) (m : DecodeMode) (op : Word) : Prop :=
  match m with
  | .docKeys => op &&& r.mask = r.bits
  | .canonicalOnly => op &&& r.canonicalMask = r.canonicalBits

/-- The row of spec/opcode_table.json an instruction belongs to. -/
def Instr.row : Instr → OpcodeRow
  | .cls _        => ⟨0x0000#16, 0xF00F#16, 0x00E0#16, 0xFFFF#16⟩
  | .ret _        => ⟨0x000E#16, 0xF00F#16, 0x00EE#16, 0xFFFF#16⟩
  | .jp _         => .plain 0x1000#16 0xF000#16
  | .call _       => .plain 0x2000#16 0xF000#16
  | .seImm _ _    => .plain 0x3000#16 0xF000#16
  | .sneImm _ _   => .plain 0x4000#16 0xF000#16
  | .seReg _ _ _  => ⟨0x5000#16, 0xF000#16, 0x5000#16, 0xF00F#16⟩
  | .ldImm _ _    => .plain 0x6000#16 0xF000#16
  | .addImm _ _   => .plain 0x7000#16 0xF000#16
  | .ldReg _ _    => .plain 0x8000#16 0xF00F#16
  | .orReg _ _    => .plain 0x8001#16 0xF00F#16
  | .andReg _ _   => .plain 0x8002#16 0xF00F#16
  | .xorReg _ _   => .plain 0x8003#16 0xF00F#16
  | .addReg _ _   => .plain 0x8004#16 0xF00F#16
  | .sub _ _      => .plain 0x8005#16 0xF00F#16
  | .shr _ _      => .plain 0x8006#16 0xF00F#16
  | .subn _ _     => .plain 0x8007#16 0xF00F#16
  | .shl _ _      => .plain 0x800E#16 0xF00F#16
  | .sneReg _ _ _ => ⟨0x9000#16, 0xF000#16, 0x9000#16, 0xF00F#16⟩
  | .ldI _        => .plain 0xA000#16 0xF000#16
  | .jpV0 _       => .plain 0xB000#16 0xF000#16
  | .rnd _ _      => .plain 0xC000#16 0xF000#16
  | .drw _ _ _    => .plain 0xD000#16 0xF000#16
  | .skp _ _      => ⟨0xE090#16, 0xF0F0#16, 0xE09E#16, 0xF0FF#16⟩
  | .sknp _ _     => ⟨0xE0A0#16, 0xF0F0#16, 0xE0A1#16, 0xF0FF#16⟩
  | .ldVxDt _     => .plain 0xF007#16 0xF0FF#16
  | .ldVxK _      => .plain 0xF00A#16 0xF0FF#16
  | .ldDtVx _     => .plain 0xF015#16 0xF0FF#16
  | .ldStVx _     => .plain 0xF018#16 0xF0FF#16
  | .addI _       => .plain 0xF01E#16 0xF0FF#16
  | .ldF _        => .plain 0xF029#16 0xF0FF#16
  | .ldB _        => .plain 0xF033#16 0xF0FF#16
  | .ldMemVx _    => .plain 0xF055#16 0xF0FF#16
  | .ldVxMem _    => .plain 0xF065#16 0xF0FF#16

/-! ## The host's table words -/

/-- What the decoder reads from an opcode-table word of `nbits` bits, in the default DECODE_MODE (R8). The
table numbers the bits of the one 16-bit word as R10 does; the word is laid out high byte first (R63). -/
def decodeTableWord (nbits w : Nat) : Option Instr :=
  let op : Word := BitVec.ofNat 16 (w % 2 ^ nbits)
  match decodeBytes .docKeys [op.extractLsb' 8 8, op.extractLsb' 0 8] with
  | .ok (i, _) => some i
  | .error _ => none

end Sys2Proof
end

