-- ==== Sys2Proof/Machine/Defaults.lean ====
section
/-! DEFINITION. The defaults of the open parameters (spec/00_scope.md R8) and the default font table
(spec/10_state.md R43). -/

namespace Sys2Proof

/-- The default FONT_TABLE of R43. PRESUMED (log 2): the spec gives these bytes from general knowledge. -/
def Config.defaultFont : FontTable :=
  let low : Vector Byte 40 :=
    #v[0xF0, 0x90, 0x90, 0x90, 0xF0,  0x20, 0x60, 0x20, 0x20, 0x70,
       0xF0, 0x10, 0xF0, 0x80, 0xF0,  0xF0, 0x10, 0xF0, 0x10, 0xF0,
       0x90, 0x90, 0xF0, 0x10, 0x10,  0xF0, 0x80, 0xF0, 0x10, 0xF0,
       0xF0, 0x80, 0xF0, 0x90, 0xF0,  0xF0, 0x10, 0x20, 0x40, 0x40]
  let high : Vector Byte 40 :=
    #v[0xF0, 0x90, 0xF0, 0x90, 0xF0,  0xF0, 0x90, 0xF0, 0x10, 0xF0,
       0xF0, 0x90, 0xF0, 0x90, 0x90,  0xE0, 0x90, 0xE0, 0x90, 0xE0,
       0xF0, 0x80, 0x80, 0x80, 0xF0,  0xE0, 0x90, 0x90, 0x90, 0xE0,
       0xF0, 0x80, 0xF0, 0x80, 0xF0,  0xF0, 0x80, 0xF0, 0x80, 0x80]
  low ++ high

/-- The defaults of R8. -/
def Config.defaultParams : Params where
  decodeMode   := .docKeys
  vfAliasOrder := .resultLast
  memOob       := .fault
  keyOob       := .fault
  fontTable    := Config.defaultFont

end Sys2Proof
end

