-- ==== Sys2Proof/Machine/State.lean ====
section
/-! DEFINITION. The state of the core (spec/10_state.md) as plain data, its reset value
(spec/70_reset_and_hazards.md R270), and the ways a step can stop outside the spec's own faults. -/

namespace Sys2Proof.Machine

/-- The 16 general registers (R30). -/
abbrev RegFile := Vector Byte 16

/-- The call-stack entries (R38). -/
abbrev CallStack := Vector Word 16

/-- The 4096 bytes of R42 as the list of those that differ from the boot contents, addresses rising (log 10). -/
abbrev Memory := List Host.Cell

/-- The display buffer of R45: 32 rows of 64 pixels, so that `d[y][x]` is Disp[x][y]. -/
abbrev Display := Vector (Vector Bool 64) 32

/-- The keypad flags of R47, true when pressed. -/
abbrev Keypad := Vector Bool 16

/-- The fault kinds a cycle can raise (spec/60_exceptions.md R230). -/
inductive FaultKind
  /-- The fetched word decodes to no handler. -/
  | unknownOpcode
  /-- CALL with SP = 16. -/
  | stackOverflow
  /-- RET with SP = 0. -/
  | stackUnderflow
  /-- A byte address of 0x1000 or more under MEM_OOB = FAULT: the fetch, Dxyn, Fx33, Fx55, Fx65. -/
  | addressOutOfRange
  /-- A key index above 0xF under KEY_OOB = FAULT: Ex9E, ExA1. -/
  | keyIndexOutOfRange
deriving DecidableEq, Repr

/-- The fault record of R48. Its `code` is a function of its kind (`FaultKind.code`, log 5). -/
structure FaultRecord where
  kind   : FaultKind
  /-- PC at the start of the faulting cycle. -/
  pc     : Word
  /-- The word fetched, or none when the fetch itself faulted. -/
  opcode : Option Word
  /-- The first out-of-range address, the out-of-range key index, or none for the other kinds. -/
  addr   : Option Nat
deriving DecidableEq, Repr

/-- The RAND port (R24): the model's own fields, not the spec's (log 3). -/
structure RandPort where
  /-- Bytes the host has injected and no Cxkk has drawn yet, next first. -/
  injected : List Byte
  /-- How many draws Cxkk has made. -/
  draws    : Nat
deriving DecidableEq, Repr

/-- Everything the spec gives the machine (R30 to R51), with the model's own `rand` (log 3) and
`params` (log 1). -/
structure State where
  /-- V0..VF (R30). -/
  v      : RegFile
  /-- The index register I (R33). -/
  i      : Word
  /-- The program counter (R35). -/
  pc     : Word
  /-- The stack pointer, the number of return addresses held (R37). -/
  sp     : Byte
  /-- Stack[0..15] (R38). -/
  stack  : CallStack
  /-- The delay timer (R40). -/
  dt     : Byte
  /-- The sound timer (R40). -/
  st     : Byte
  /-- Memory (R42). -/
  mem    : Memory
  /-- The display buffer (R45). -/
  disp   : Display
  /-- The keypad flags (R47), written by the host only. -/
  keys   : Keypad
  /-- The fault record (R48); the core is halted exactly when it is not none. -/
  fault  : Option FaultRecord
  /-- The RAND port (R24). -/
  rand   : RandPort
  /-- The open parameters (R8), which nothing writes. -/
  params : Params
deriving DecidableEq, Repr

/-- Why the model stops where the spec gives no effect. The spec's own faults are not here: taking one is a
next state with the fault record set (R234, log 4). -/
inductive Fault
  /-- Raised by CALL and RET in a state whose SP is above 16, where the spec has no slot to read or write and
  which it calls unreachable (R37). Safe: the model stops, and no step reaches such a state. -/
  | stackPointerOutOfRange (sp : Byte)
deriving DecidableEq, Repr

/-- Why exec refuses an instruction. -/
inductive Refusal
  /-- Raised by exec's arm of an instruction that has no meaning yet (none is left). Safe: nothing is claimed. -/
  | notModelled (mnemonic : String)
deriving DecidableEq, Repr

/-- The state after power-on, the font load and the load of an empty program, for any parameters
(R32, R34, R36, R39, R41, R44, R46, R47, R49, R270). -/
def State.powerOn (p : Params) : State where
  v      := Vector.replicate 16 0
  i      := 0
  pc     := 0x200
  sp     := 0
  stack  := Vector.replicate 16 0
  dt     := 0
  st     := 0
  mem    := []
  disp   := Vector.replicate 32 (Vector.replicate 64 false)
  keys   := Vector.replicate 16 false
  fault  := none
  rand   := ⟨[], 0⟩
  params := p

/-- The machine right after reset, with the default parameters of R8 (log 1, log 9). -/
def State.reset : State := State.powerOn Config.defaultParams

end Sys2Proof.Machine
end

