-- ==== Sys2Proof/Machine/Ops.lean ====
section
/-! DEFINITION. The named operations over registers, memory, the call stack, the display and the RAND port;
the address check; taking a fault; and the parts of the cycle (spec/10_state.md, spec/20_memory.md,
spec/60_exceptions.md §1 and §3, spec/30_encoding.md §4). -/

namespace Sys2Proof.Machine

/-! ## Memory (R42, R60 to R70) -/

/-- What an address no entry lists reads as: FONT_TABLE at 0x050..0x09F, zero elsewhere (R44, R66). -/
def Memory.unlisted (font : FontTable) (a : Nat) : Byte :=
  if h : Config.fontBase ≤ a ∧ a < Config.fontBase + Config.fontSize then
    font[a - Config.fontBase]'(by
      obtain ⟨h₁, h₂⟩ := h
      unfold Config.fontBase at *
      unfold Config.fontSize at h₂
      omega)
  else 0

/-- MemRead of one byte (R13). -/
def Memory.read (font : FontTable) : Memory → Nat → Byte
  | [], a => Memory.unlisted font a
  | (k, b) :: m, a => if k = a then b else Memory.read font m a

/-- The list `m` with `a` holding `b` in front of it, or `m` alone where `a` reads as `b` unlisted. -/
def Memory.push (font : FontTable) (m : Memory) (a : Nat) (b : Byte) : Memory :=
  if b = Memory.unlisted font a then m else (a, b) :: m

/-- MemWrite of one byte (R13), keeping the canonical form. -/
def Memory.write (font : FontTable) : Memory → Nat → Byte → Memory
  | [], a, b => Memory.push font [] a b
  | (k, c) :: m, a, b =>
    if a < k then Memory.push font ((k, c) :: m) a b
    else if a = k then Memory.push font m a b
    else (k, c) :: Memory.write font m a b

/-- The canonical form from address `lo` on: addresses strictly rising and below 0x1000, no entry equal to
what its address reads as unlisted. -/
def Memory.wfFrom (font : FontTable) (lo : Nat) : Memory → Bool
  | [] => true
  | (k, b) :: m =>
    lo ≤ k && k < Config.memSize && b != Memory.unlisted font k && Memory.wfFrom font (k + 1) m

/-- The canonical form of the whole memory. -/
def Memory.wf (font : FontTable) (m : Memory) : Bool := Memory.wfFrom font 0 m

/-- The byte at an address (R13). -/
def State.readByte (s : State) (a : Nat) : Byte := Memory.read s.params.fontTable s.mem a

/-- Store a byte at an address (R13). -/
def State.writeByte (s : State) (a : Nat) (b : Byte) : State :=
  { s with mem := Memory.write s.params.fontTable s.mem a b }

/-- Store bytes at the addresses paired with them, in order. -/
def State.writeBytes (s : State) (cells : List (Nat × Byte)) : State :=
  cells.foldl (fun s c => s.writeByte c.1 c.2) s

/-- The address check of R62: the address itself up to 0xFFF; beyond, the failing address under FAULT and the
address modulo 4096 under WRAP. -/
def check (o : MemOob) (a : Nat) : Except Nat Nat :=
  if a < Config.memSize then .ok a
  else match o with
    | .fault => .error a
    | .wrap => .ok (a % Config.memSize)

/-- Check addresses in order, before any is used; the first failing one is the answer on failure (R62). -/
def checkAll (o : MemOob) : List Nat → Except Nat (List Nat)
  | [] => .ok []
  | a :: as =>
    match check o a with
    | .error e => .error e
    | .ok b =>
      match checkAll o as with
      | .error e => .error e
      | .ok bs => .ok (b :: bs)

/-! ## Registers and single-field updates (R12) -/

/-- `V[x]`. -/
def State.readV (s : State) (x : Reg) : Byte := s.v[x]

/-- `V[x] <- b`. -/
def State.writeV (s : State) (x : Reg) (b : Byte) : State := { s with v := s.v.set x b }

/-- Write V0, V1, ... from a list, ascending (R209). -/
def State.writeVs (s : State) (cells : List (Reg × Byte)) : State :=
  cells.foldl (fun s c => s.writeV c.1 c.2) s

/-- `I <- a`. -/
def State.setI (s : State) (a : Word) : State := { s with i := a }

/-- `pc <- a`. -/
def State.setPc (s : State) (a : Word) : State := { s with pc := a }

/-- `DT <- b`. -/
def State.setDt (s : State) (b : Byte) : State := { s with dt := b }

/-- `ST <- b`. -/
def State.setSt (s : State) (b : Byte) : State := { s with st := b }

/-! ## PC arithmetic (R97, R117; modulo 2^16, decision D6) -/

/-- PC + 2: the advance after fetch, and a skip. -/
def State.advance (s : State) : State := s.setPc (s.pc + 2)

/-- PC - 2: the rewind of Fx0A, and the PC a faulting handler leaves. -/
def State.rewind (s : State) : State := s.setPc (s.pc - 2)

/-- A skip: one word further when the condition holds (R117). -/
def State.skipIf (s : State) (c : Bool) : State := if c then s.advance else s

/-! ## Call stack (R37, R38) -/

/-- Push: write the free slot, then count it (R38). -/
def State.pushAt (s : State) (j : Fin 16) (a : Word) : State :=
  { s with stack := s.stack.set j a, sp := s.sp + 1 }

/-- Pop: only the count goes down; the entry is not cleared (R38, decision D22). -/
def State.popped (s : State) : State := { s with sp := s.sp - 1 }

/-! ## Display (R45) -/

/-- Disp[x][y]. -/
def State.pixel (s : State) (x : Fin 64) (y : Fin 32) : Bool := s.disp[y][x]

/-- Toggle one pixel. -/
def State.togglePixel (s : State) (x : Fin 64) (y : Fin 32) : State :=
  { s with disp := s.disp.set y (s.disp[y].set x (!s.disp[y][x])) }

/-- Every pixel 0 (R170). -/
def State.clearDisplay (s : State) : State :=
  { s with disp := Vector.replicate 32 (Vector.replicate 64 false) }

/-! ## RAND port (R15, R24; log 3) -/

/-- The byte the next draw gives: the next injected one, else the free value. -/
def State.nextRand (s : State) : Byte :=
  match s.rand.injected with
  | b :: _ => b
  | [] => Config.freeRandByte s.rand.draws

/-- The port after one draw. -/
def State.consumeRand (s : State) : State :=
  { s with rand := ⟨s.rand.injected.tail, s.rand.draws + 1⟩ }

/-! ## Faults (R230 to R237) -/

/-- The code of a fault kind (R231). -/
def FaultKind.code : FaultKind → Byte
  | .unknownOpcode      => 0x01
  | .stackOverflow      => 0x02
  | .stackUnderflow     => 0x03
  | .addressOutOfRange  => 0x04
  | .keyIndexOutOfRange => 0x05

/-- The record's `code` field (R48). -/
def FaultRecord.code (r : FaultRecord) : Byte := r.kind.code

/-- Halted: the fault record is not none (R48, R235). -/
def State.halted (s : State) : Bool := s.fault.isSome

/-- TAKING A FAULT (R234), from a state that is as the cycle began: the record is set, with PC, the word
fetched and the address; nothing else changes. There is no handler and no return (R237). -/
def State.takeFault (s : State) (kind : FaultKind) (opcode : Option Word) (addr : Option Nat) : State :=
  { s with fault := some ⟨kind, s.pc, opcode, addr⟩ }

/-- A handler's `raise` (R14): the PC advance is not committed, and no handler writes before it raises, so the
state is again the one the cycle began with; the word fetched is the instruction's own (log 6, log 7). -/
def State.raise (s : State) (kind : FaultKind) (i : Instr) (addr : Option Nat) : State :=
  s.rewind.takeFault kind (some (encode i)) addr

/-! ## The parts of the cycle (R95) -/

/-- The fetch of R96: both addresses checked, the lower first; the byte at PC is the high byte. -/
def State.fetch (s : State) : Except Nat Word :=
  match check s.params.memOob s.pc.toNat with
  | .error a => .error a
  | .ok a₀ =>
    match check s.params.memOob (s.pc.toNat + 1) with
    | .error a => .error a
    | .ok a₁ => .ok (wordOfBytes (s.readByte a₀) (s.readByte a₁))

/-- A timer's tick: down by one while above 0 (R240). -/
def tickByte (b : Byte) : Byte := if 0 < b.toNat then b - 1 else b

/-- TimerTick (R240). -/
def State.tick (s : State) : State := { s with dt := tickByte s.dt, st := tickByte s.st }

/-- The end of a cycle: the tick follows a handler that completed; a handler that raised leaves no tick
(R234, R240). -/
def finishCycle : Host.Outcome State Fault Refusal → Host.Outcome State Fault Refusal
  | .next t => .next (if t.halted then t else t.tick)
  | .fault f => .fault f
  | .refused r => .refused r

/-- A fetch that fails: AddressOutOfRange with no opcode (R231 to R233). -/
def State.fetchFault (s : State) (a : Nat) : State := s.takeFault .addressOutOfRange none (some a)

/-- A word with no handler: UnknownOpcode (R88, R231). -/
def State.unknownOpcodeFault (s : State) (op : Word) : State := s.takeFault .unknownOpcode (some op) none

/-! ## Placing an instruction where the next fetch reads it (for `State.withFetchWord`) -/

/-- A core that is not halted and whose PC can be fetched from: where it is not, PC becomes PROG_BASE. -/
def State.fetchable (s : State) : State :=
  match s.fetch with
  | .ok _ => { s with fault := none }
  | .error _ => { s with fault := none, pc := 0x200 }

/-- Store the two bytes of a word, high byte first, where the fetch reads them (R63, R96). -/
def State.placeWord (s : State) (op : Word) : State :=
  s.writeBytes [(s.pc.toNat % Config.memSize, op.extractLsb' 8 8),
    ((s.pc.toNat + 1) % Config.memSize, op.extractLsb' 0 8)]

end Sys2Proof.Machine
end

