-- ==== Sys2Proof/Machine/Operands.lean ====
section
/-! DEFINITION. Operand forms: immediates and addresses (spec/30_encoding.md R82), the byte addresses
I + k of a data access (spec/20_memory.md R61), the key index (spec/45_keypad.md R193), sprite coordinates
(spec/44_display.md R171, R172) and BCD digits (spec/46_timer_index_memory.md R205). -/

namespace Sys2Proof.Machine

/-- `nnn` zero-extended to 16 bits (R82). -/
def zextAddr (nnn : Addr12) : Word := nnn.setWidth 16

/-- A byte zero-extended to 16 bits (R203, R204). -/
def zextByte (b : Byte) : Word := b.setWidth 16

/-- The addresses I, I+1, ..., I+n-1, formed exactly, without wrap (R61). -/
def State.dataAddrs (s : State) (n : Nat) : List Nat := List.range' s.i.toNat n

/-- Those addresses after the check of R62, or the lowest failing one. -/
def State.checkedAddrs (s : State) (n : Nat) : Except Nat (List Nat) :=
  checkAll s.params.memOob (s.dataAddrs n)

/-- The registers V0..Vx, ascending, x included (R208, R209). -/
def regsUpTo (x : Reg) : List Reg := (List.finRange 16).take (x.val + 1)

/-- KeyIndex (R193). -/
def keyIndex (o : KeyOob) (b : Byte) : Except Nat (Fin 16) :=
  if h : b.toNat < 16 then .ok ⟨b.toNat, h⟩
  else match o with
    | .fault => .error b.toNat
    | .mask => .ok (Fin.ofNat 16 (b &&& 0xF#8).toNat)

/-- The lowest pressed key (R192). -/
def lowestKey (keys : Keypad) : Option (Fin 16) := (List.finRange 16).find? (fun k => keys[k])

/-- A column, modulo 64 (R171). -/
def columnOf (n : Nat) : Fin 64 := Fin.ofNat 64 n

/-- A row, modulo 32 (R171). -/
def rowOf (n : Nat) : Fin 32 := Fin.ofNat 32 n

/-- The pixels the set bits of one sprite byte land on, most significant bit first (R172). -/
def spriteRowPixels (bx py : Nat) (b : Byte) : List (Fin 64 × Fin 32) :=
  ((List.range 8).filter (fun bit => b.getLsbD (7 - bit))).map (fun bit => (columnOf (bx + bit), rowOf py))

/-- The pixels a sprite's set bits land on, rows from the top (R171, R172). -/
def spritePixels (bx : Nat) : Nat → List Byte → List (Fin 64 × Fin 32)
  | _, [] => []
  | py, b :: bs => spriteRowPixels bx py b ++ spritePixels bx (py + 1) bs

/-- The three decimal digits of a byte, hundreds first (R205). -/
def bcdDigits (b : Byte) : List Byte :=
  [BitVec.ofNat 8 (b.toNat / 100), BitVec.ofNat 8 (b.toNat / 10 % 10), BitVec.ofNat 8 (b.toNat % 10)]

end Sys2Proof.Machine
end

