-- ==== Sys2Proof/Machine/Flags.lean ====
section
/-! DEFINITION. Flag and result computations of 8xy4 to 8xy7 and 8xyE, and the order in which VF and Vx are
written (spec/42_arithmetic_logic_shift.md R140 to R152). -/

namespace Sys2Proof.Machine

/-- A flag as VF holds it: 1 or 0. -/
def flagByte (f : Bool) : Byte := if f then 1 else 0

/-- Carry of a + b: the 9-bit sum exceeds 255 (R144). -/
def addFlag (a b : Byte) : Bool := 255 < a.toNat + b.toNat

/-- a + b modulo 256 (R144). -/
def addResult (a b : Byte) : Byte := BitVec.ofNat 8 (a.toNat + b.toNat)

/-- The minuend is strictly greater (R145, R146). -/
def subFlag (a b : Byte) : Bool := b.toNat < a.toNat

/-- a - b modulo 256 (R145, R146). -/
def subResult (a b : Byte) : Byte := a - b

/-- The pre-shift low bit, of both shifts (R150, R151). -/
def shiftFlag (a : Byte) : Bool := a.getLsbD 0

/-- a >> 1 (R150). -/
def shrResult (a : Byte) : Byte := a >>> 1

/-- (a << 1) modulo 256 (R151). -/
def shlResult (a : Byte) : Byte := a <<< 1

/-- WriteFlagResult (R140). `r` is the result of the operands sampled before any write; `again` computes it
from the registers as they stand, for SEQUENTIAL. -/
def State.writeFlagResult (s : State) (x : Reg) (f : Bool) (r : Byte) (again : State → Byte) : State :=
  match s.params.vfAliasOrder with
  | .resultLast => (s.writeV regF (flagByte f)).writeV x r
  | .flagLast   => (s.writeV x r).writeV regF (flagByte f)
  | .sequential => (s.writeV regF (flagByte f)).writeV x (again (s.writeV regF (flagByte f)))

end Sys2Proof.Machine
end

