-- ==== Sys2Proof/Machine/Arithmetic.lean ====
section
/-! DEFINITION. Moves, addition, logic, subtraction and shifts (spec/42_arithmetic_logic_shift.md). PC, I,
memory, the stack, the timers, the display and the keypad are not touched, and no fault is raised. -/

namespace Sys2Proof.Machine

/-- 6xkk (R130). -/
def execLdImm (x : Reg) (kk : Byte) (s : State) : Host.Outcome State Fault Refusal :=
  .next (s.writeV x kk)

/-- 7xkk: no flag (R131). -/
def execAddImm (x : Reg) (kk : Byte) (s : State) : Host.Outcome State Fault Refusal :=
  .next (s.writeV x (addResult (s.readV x) kk))

/-- 8xy0 (R132, R136). -/
def execLdReg (x y : Reg) (s : State) : Host.Outcome State Fault Refusal :=
  .next (s.writeV x (s.readV y))

/-- 8xy1 (R133, R136). -/
def execOrReg (x y : Reg) (s : State) : Host.Outcome State Fault Refusal :=
  .next (s.writeV x (s.readV x ||| s.readV y))

/-- 8xy2 (R134, R136). -/
def execAndReg (x y : Reg) (s : State) : Host.Outcome State Fault Refusal :=
  .next (s.writeV x (s.readV x &&& s.readV y))

/-- 8xy3 (R135, R136). -/
def execXorReg (x y : Reg) (s : State) : Host.Outcome State Fault Refusal :=
  .next (s.writeV x (s.readV x ^^^ s.readV y))

/-- 8xy4 (R144). Under SEQUENTIAL the result is the sampled one. -/
def execAddReg (x y : Reg) (s : State) : Host.Outcome State Fault Refusal :=
  let r := addResult (s.readV x) (s.readV y)
  .next (s.writeFlagResult x (addFlag (s.readV x) (s.readV y)) r (fun _ => r))

/-- 8xy5 (R145). -/
def execSub (x y : Reg) (s : State) : Host.Outcome State Fault Refusal :=
  .next (s.writeFlagResult x (subFlag (s.readV x) (s.readV y)) (subResult (s.readV x) (s.readV y))
    (fun t => subResult (t.readV x) (t.readV y)))

/-- 8xy7 (R146). -/
def execSubn (x y : Reg) (s : State) : Host.Outcome State Fault Refusal :=
  .next (s.writeFlagResult x (subFlag (s.readV y) (s.readV x)) (subResult (s.readV y) (s.readV x))
    (fun t => subResult (t.readV y) (t.readV x)))

/-- 8xy6: the y field is ignored (R150). -/
def execShr (x : Reg) (s : State) : Host.Outcome State Fault Refusal :=
  .next (s.writeFlagResult x (shiftFlag (s.readV x)) (shrResult (s.readV x)) (fun t => shrResult (t.readV x)))

/-- 8xyE: VF takes the pre-shift LOW bit; the y field is ignored (R151). -/
def execShl (x : Reg) (s : State) : Host.Outcome State Fault Refusal :=
  .next (s.writeFlagResult x (shiftFlag (s.readV x)) (shlResult (s.readV x)) (fun t => shlResult (t.readV x)))

end Sys2Proof.Machine
end

