-- ==== Sys2Proof/Machine/ControlFlow.lean ====
section
/-! DEFINITION. Jumps, call, return and skips (spec/41_control_flow.md). On entry PC is pc0 + 2. -/

namespace Sys2Proof.Machine

/-- 1nnn (R110). -/
def execJp (nnn : Addr12) (s : State) : Host.Outcome State Fault Refusal :=
  .next (s.setPc (zextAddr nnn))

/-- 2nnn (R111); STACK_DEPTH is 16 (R6, R7). -/
def execCall (nnn : Addr12) (s : State) : Host.Outcome State Fault Refusal :=
  if s.sp.toNat = 16 then .next (s.raise .stackOverflow (.call nnn) none)
  else if h : s.sp.toNat < 16 then .next ((s.pushAt ⟨s.sp.toNat, h⟩ s.pc).setPc (zextAddr nnn))
  else .fault (.stackPointerOutOfRange s.sp)

/-- 00EE (R112). -/
def execRet (xy : Byte) (s : State) : Host.Outcome State Fault Refusal :=
  if s.sp.toNat = 0 then .next (s.raise .stackUnderflow (.ret xy) none)
  else if h : s.sp.toNat - 1 < 16 then .next (s.popped.setPc s.stack[s.sp.toNat - 1])
  else .fault (.stackPointerOutOfRange s.sp)

/-- 3xkk (R113). -/
def execSeImm (x : Reg) (kk : Byte) (s : State) : Host.Outcome State Fault Refusal :=
  .next (s.skipIf (s.readV x == kk))

/-- 4xkk (R114). -/
def execSneImm (x : Reg) (kk : Byte) (s : State) : Host.Outcome State Fault Refusal :=
  .next (s.skipIf (s.readV x != kk))

/-- 5xy0 (R115). -/
def execSeReg (x y : Reg) (s : State) : Host.Outcome State Fault Refusal :=
  .next (s.skipIf (s.readV x == s.readV y))

/-- 9xy0 (R116). -/
def execSneReg (x y : Reg) (s : State) : Host.Outcome State Fault Refusal :=
  .next (s.skipIf (s.readV x != s.readV y))

end Sys2Proof.Machine
end

