-- ==== Sys2Proof/Machine/DisplayOps.lean ====
section
/-! DEFINITION. Clear and draw (spec/44_display.md). -/

namespace Sys2Proof.Machine

/-- 00E0 (R170). -/
def execCls (s : State) : Host.Outcome State Fault Refusal :=
  .next s.clearDisplay

/-- One set sprite bit: the pixel is tested BEFORE the toggle, and a pixel at 1 sets the collision
(R171, R173). -/
def State.drawPixel (c : State × Bool) (p : Fin 64 × Fin 32) : State × Bool :=
  (c.1.togglePixel p.1 p.2, c.2 || c.1.pixel p.1 p.2)

/-- XOR the set bits of a sprite into the display and say whether any collided. -/
def State.drawPixels (s : State) (ps : List (Fin 64 × Fin 32)) : State × Bool :=
  ps.foldl State.drawPixel (s, false)

/-- The register file the coordinates are read from: under SEQUENTIAL, VF has been reset first (R171). -/
def State.coordV (s : State) (x : Reg) : Byte :=
  match s.params.vfAliasOrder with
  | .resultLast => s.readV x
  | .flagLast   => s.readV x
  | .sequential => (s.writeV regF 0).readV x

/-- Dxyn (R171): every row address is checked before VF or a pixel is written; the base coordinates are taken
modulo 64 and 32; VF ends as the collision flag. -/
def execDrw (x y : Reg) (n : Nibble) (s : State) : Host.Outcome State Fault Refusal :=
  match s.checkedAddrs n.toNat with
  | .error a => .next (s.raise .addressOutOfRange (.drw x y n) (some a))
  | .ok addrs =>
    let drawn := s.drawPixels
      (spritePixels ((s.coordV x).toNat % 64) ((s.coordV y).toNat % 32) (addrs.map s.readByte))
    .next (drawn.1.writeV regF (flagByte drawn.2))

end Sys2Proof.Machine
end

