-- ==== Sys2Proof/Machine/IndexJumpRandom.lean ====
section
/-! DEFINITION. Index load, jump with offset, random (spec/43_index_jump_random.md). -/

namespace Sys2Proof.Machine

/-- Annn (R160). -/
def execLdI (nnn : Addr12) (s : State) : Host.Outcome State Fault Refusal :=
  .next (s.setI (zextAddr nnn))

/-- Bnnn: always V0 (R161). -/
def execJpV0 (nnn : Addr12) (s : State) : Host.Outcome State Fault Refusal :=
  .next (s.setPc (zextAddr nnn + zextByte (s.readV 0)))

/-- Cxkk: exactly one draw (R162, R24). -/
def execRnd (x : Reg) (kk : Byte) (s : State) : Host.Outcome State Fault Refusal :=
  .next (s.consumeRand.writeV x (s.nextRand &&& kk))

end Sys2Proof.Machine
end

