-- ==== Sys2Proof/Machine/Keypad.lean ====
section
/-! DEFINITION. Keypad instructions (spec/45_keypad.md). The keypad sample of the cycle is the keypad itself:
nothing writes it during a cycle (R194, log 8). -/

namespace Sys2Proof.Machine

/-- Ex9E (R190). -/
def execSkp (x : Reg) (n : Nibble) (s : State) : Host.Outcome State Fault Refusal :=
  match keyIndex s.params.keyOob (s.readV x) with
  | .error k => .next (s.raise .keyIndexOutOfRange (.skp x n) (some k))
  | .ok k => .next (s.skipIf s.keys[k])

/-- ExA1 (R191). -/
def execSknp (x : Reg) (n : Nibble) (s : State) : Host.Outcome State Fault Refusal :=
  match keyIndex s.params.keyOob (s.readV x) with
  | .error k => .next (s.raise .keyIndexOutOfRange (.sknp x n) (some k))
  | .ok k => .next (s.skipIf (!s.keys[k]))

/-- Fx0A (R192): the lowest pressed key, or PC back to this instruction. -/
def execLdVxK (x : Reg) (s : State) : Host.Outcome State Fault Refusal :=
  match lowestKey s.keys with
  | some k => .next (s.writeV x (BitVec.ofNat 8 k.val))
  | none => .next s.rewind

end Sys2Proof.Machine
end

