-- ==== Sys2Proof/Machine/TimerIndexMemory.lean ====
section
/-! DEFINITION. Timer transfers, index arithmetic, font addressing, BCD and block transfers
(spec/46_timer_index_memory.md). Fx33, Fx55 and Fx65 leave I unchanged (R210). -/

namespace Sys2Proof.Machine

/-- Fx07: DT before this cycle's tick (R200). -/
def execLdVxDt (x : Reg) (s : State) : Host.Outcome State Fault Refusal :=
  .next (s.writeV x s.dt)

/-- Fx15 (R201). -/
def execLdDtVx (x : Reg) (s : State) : Host.Outcome State Fault Refusal :=
  .next (s.setDt (s.readV x))

/-- Fx18 (R202). -/
def execLdStVx (x : Reg) (s : State) : Host.Outcome State Fault Refusal :=
  .next (s.setSt (s.readV x))

/-- Fx1E: modulo 2^16, VF untouched (R203). -/
def execAddI (x : Reg) (s : State) : Host.Outcome State Fault Refusal :=
  .next (s.setI (s.i + zextByte (s.readV x)))

/-- Fx29: the full byte, not masked (R204). -/
def execLdF (x : Reg) (s : State) : Host.Outcome State Fault Refusal :=
  .next (s.setI (BitVec.ofNat 16 (Config.fontBase + Config.glyphBytes * (s.readV x).toNat)))

/-- Fx33 (R205). -/
def execLdB (x : Reg) (s : State) : Host.Outcome State Fault Refusal :=
  match s.checkedAddrs 3 with
  | .error a => .next (s.raise .addressOutOfRange (.ldB x) (some a))
  | .ok addrs => .next (s.writeBytes (addrs.zip (bcdDigits (s.readV x))))

/-- Fx55 (R208). -/
def execLdMemVx (x : Reg) (s : State) : Host.Outcome State Fault Refusal :=
  match s.checkedAddrs (x.val + 1) with
  | .error a => .next (s.raise .addressOutOfRange (.ldMemVx x) (some a))
  | .ok addrs => .next (s.writeBytes (addrs.zip ((regsUpTo x).map s.readV)))

/-- Fx65 (R209). -/
def execLdVxMem (x : Reg) (s : State) : Host.Outcome State Fault Refusal :=
  match s.checkedAddrs (x.val + 1) with
  | .error a => .next (s.raise .addressOutOfRange (.ldVxMem x) (some a))
  | .ok addrs => .next (s.writeVs ((regsUpTo x).zip (addrs.map s.readByte)))

end Sys2Proof.Machine
end

