-- ==== Sys2Proof/Machine/Step.lean ====
section
/-! DEFINITION. One cycle (spec/30_encoding.md R95) and the placement of an instruction at the next fetch. -/

namespace Sys2Proof.Machine

/-- One STEP strobe (R23, R95): nothing in the halted state (R236); else fetch, advance PC by 2, decode,
execute, tick. The faults come in the order of R233. -/
def step (s : State) : Host.Outcome State Fault Refusal :=
  if s.halted then .next s
  else match s.fetch with
    | .error a => .next (s.fetchFault a)
    | .ok op =>
      match decode s.params.decodeMode op with
      | .error _ => .next (s.unknownOpcodeFault op)
      | .ok i => finishCycle (exec i s.advance)

/-- `s` with the table word `w` of `nbits` bits stored where the next fetch reads, the core not halted and its
PC one that can be fetched from (log 9). -/
def State.withFetchWord (s : State) (nbits w : Nat) : State :=
  s.fetchable.placeWord (BitVec.ofNat 16 (w % 2 ^ nbits))

end Sys2Proof.Machine
end

