-- ==== Sys2Proof/Machine/Boot.lean ====
section
/-! DEFINITION. Power-on and boot (spec/70_reset_and_hazards.md §1) and the LOAD port (spec/00_scope.md R22). -/

namespace Sys2Proof.Machine

/-- Boot errors: startup aborts and no cycle is run (R274, R275). They are no faults of a cycle (R230). -/
inductive BootError
  /-- The program bytes cannot be obtained (R275). -/
  | romUnreadable
  /-- The program is longer than 3584 bytes (R274). -/
  | romTooLarge
deriving DecidableEq, Repr

/-- The code of a boot error (R231). -/
def BootError.code : BootError → Byte
  | .romUnreadable => 0x10
  | .romTooLarge   => 0x11

/-- Bytes paired with the addresses from `base` on. -/
def cellsFrom (base : Nat) (bytes : List Byte) : List (Nat × Byte) :=
  (List.range' base bytes.length).zip bytes

/-- Step 1 of R271: every field zero, memory too, and PC = 0x200. -/
def State.zeroed (p : Params) : State :=
  (State.powerOn p).writeBytes (cellsFrom Config.fontBase (List.replicate Config.fontSize 0))

/-- loadFont (R272). -/
def State.loadFont (s : State) : State :=
  s.writeBytes (cellsFrom Config.fontBase s.params.fontTable.toList)

/-- loadProgram (R273, R274): verbatim from 0x200, rejected whole when too long. -/
def State.loadProgram (s : State) (bytes : List Byte) : Except BootError State :=
  if bytes.length ≤ Config.progMax then .ok (s.writeBytes (cellsFrom Config.progBase bytes))
  else .error .romTooLarge

/-- The boot sequence of R271; `none` stands for a program that cannot be read (R275). -/
def boot (p : Params) (image : Option (List Byte)) : Except BootError State :=
  match image with
  | none => .error .romUnreadable
  | some bytes => ((State.zeroed p).loadFont).loadProgram bytes

end Sys2Proof.Machine
end

