-- ==== Sys2Proof/Machine/Ports.lean ====
section
/-! DEFINITION. The ports through which the host acts between cycles (spec/00_scope.md R18 to R27). STEP is
`step`, LOAD is `boot`; no port writes anything during a cycle (R17, R25; log 8). -/

namespace Sys2Proof.Machine

/-- KEY port: the host sets or clears one flag (R25). -/
def State.setKey (s : State) (k : Fin 16) (pressed : Bool) : State := { s with keys := s.keys.set k pressed }

/-- RAND port (R24): the host's bytes queue behind those not yet drawn. DESIGN CHOICE (log 3): the spec says only that
the source is injectable. -/
def State.injectRand (s : State) (bytes : List Byte) : State :=
  { s with rand := ⟨s.rand.injected ++ bytes, s.rand.draws⟩ }

/-- DISPLAY port: the read-only view of the grid (R26). -/
def State.displayPort (s : State) : Display := s.disp

/-- FAULT port: the fault record (R27). -/
def State.faultPort (s : State) : Option FaultRecord := s.fault

end Sys2Proof.Machine
end

