-- ==== Sys2Proof/Safety.lean ====
section
/-! DEFINITION. The terms claims use: the elements of the state one by one, what it means that all but some are
unchanged, and the legal states (spec/10_state.md; spec/60_exceptions.md R231, R234). -/

namespace Sys2Proof.Machine

/-- One observable element of the state. -/
inductive Elem
  | v (x : Reg)
  | i
  | pc
  | sp
  | slot (j : Fin 16)
  | dt
  | st
  | byte (a : Nat)
  | pixel (x : Fin 64) (y : Fin 32)
  | key (k : Fin 16)
  | fault
  | rand
  | params
deriving DecidableEq, Repr

/-- The element holds the same value in both states. -/
def Elem.Same (e : Elem) (s t : State) : Prop :=
  match e with
  | .v x       => t.readV x = s.readV x
  | .i         => t.i = s.i
  | .pc        => t.pc = s.pc
  | .sp        => t.sp = s.sp
  | .slot j    => t.stack[j] = s.stack[j]
  | .dt        => t.dt = s.dt
  | .st        => t.st = s.st
  | .byte a    => t.readByte a = s.readByte a
  | .pixel x y => t.pixel x y = s.pixel x y
  | .key k     => t.keys[k] = s.keys[k]
  | .fault     => t.fault = s.fault
  | .rand      => t.rand = s.rand
  | .params    => t.params = s.params

/-- A frame: every element outside `w` is unchanged from `s` to `t`. -/
def UnchangedBut (w : Elem → Prop) (s t : State) : Prop := ∀ e : Elem, ¬ w e → e.Same s t

/-- The handler completed from `s`: it answers `t` and has raised no fault of its own. -/
def Completes (i : Instr) (s t : State) : Prop := exec i s = .next t ∧ t.fault = s.fault

/-- The fault a handler of the instruction `i` raises from the state `s` it was entered with: the next state is
the one the cycle began with (PC two lower), but for the record (R14, R231, R234). -/
def Raises (i : Instr) (s : State) (kind : FaultKind) (addr : Option Nat) : Prop :=
  exec i s = .next { s with pc := s.pc - 2, fault := some ⟨kind, s.pc - 2, some (encode i), addr⟩ }

/-- Every address I .. I+n-1 passes the check of R62. -/
def State.dataInRange (s : State) (n : Nat) : Prop :=
  s.params.memOob = .wrap ∨ s.i.toNat + n ≤ 0x1000 ∨ n = 0

/-- The pixel (px, py) is one a set bit of the sprite at I lands on, drawn at column `cx` and row `cy` with `n` rows:
bit 7 - k of the byte at I + r lands k columns right and r rows down, wrapping (R171, R172). -/
def State.covered (s : State) (cx cy : Byte) (n : Nat) (px : Fin 64) (py : Fin 32) : Prop :=
  ∃ r < n, ∃ k < 8, (s.readByte ((s.i.toNat + r) % 0x1000)).getLsbD (7 - k) = true ∧
    px.val = (cx.toNat % 64 + k) % 64 ∧ py.val = (cy.toNat % 32 + r) % 32

/-- The record's fields are those R231 gives its kind. -/
def FaultRecord.shaped (r : FaultRecord) : Prop :=
  match r.kind with
  | .unknownOpcode      => r.opcode.isSome ∧ r.addr = none
  | .stackOverflow      => r.opcode.isSome ∧ r.addr = none
  | .stackUnderflow     => r.opcode.isSome ∧ r.addr = none
  | .addressOutOfRange  => ∃ a, r.addr = some a ∧ 0x1000 ≤ a
  | .keyIndexOutOfRange => r.opcode.isSome ∧ ∃ k, r.addr = some k ∧ 0xF < k ∧ k ≤ 0xFF

/-- The legal states: SP counts at most 16 entries (R37), memory is in canonical form (log 10), and a halted core
holds a well-shaped record whose pc is PC (R231, R234). -/
structure State.Legal (s : State) : Prop where
  sp_le     : s.sp.toNat ≤ 16
  mem_wf    : Memory.wf s.params.fontTable s.mem = true
  record_ok : ∀ r, s.fault = some r → r.shaped ∧ r.pc = s.pc

/-- The cycle the core is about to run executes `i`: it is not halted, and the word at PC decodes to `i`
(R95, R96). -/
def State.Executes (s : State) (i : Instr) : Prop :=
  s.fault = none ∧ ∃ op, s.fetch = .ok op ∧ decode s.params.decodeMode op = .ok i

/-- One completed cycle: `i` is executed, the strobe answers `t`, and no fault is recorded. -/
def Cycle (s : State) (i : Instr) (t : State) : Prop :=
  s.Executes i ∧ step s = .next t ∧ t.fault = none

/-- A safe run of `n` cycles from `s` to `t`: each completes, and each instruction executed satisfies `p`. -/
def SafeRun (p : Instr → Prop) : Nat → State → State → Prop
  | 0, s, t => s.fault = none ∧ t = s
  | n + 1, s, t => ∃ i u, Cycle s i u ∧ p i ∧ SafeRun p n u t

end Sys2Proof.Machine
end

