-- ==== Sys2Proof/Certificates/Slice0/Obligations.lean ====
section
/-! DEFINITION. The statements for the provers, from the numbered rules of spec/. A statement about a handler
speaks of `exec i s` with `s` the state after the PC advance (R97), so PC is pc0 + 2 there; `Completes`, `Raises`,
`Cycle` and `UnchangedBut` are Safety.lean's. Every statement holds for every value of the open parameters of R8
that `s.params` holds, unless it names one. -/

open Sys2Proof Sys2Proof.Machine

/-! ## Encoding -/

/-- Words written out from R94's patterns and 95_test_vectors.md L2.1 decode to the instructions they stand for. -/
def Obligations.TableWordsDecode : Prop :=
  (∀ m, decode m 0x00E0 = .ok (.cls 0x0E) ∧ decode m 0x00EE = .ok (.ret 0x0E) ∧
    decode m 0x1234 = .ok (.jp 0x234) ∧ decode m 0x6A05 = .ok (.ldImm 0xA 0x05) ∧
    decode m 0x8014 = .ok (.addReg 0 1) ∧ decode m 0x820E = .ok (.shl 2 0) ∧
    decode m 0xD015 = .ok (.drw 0 1 5) ∧ decode m 0xE59E = .ok (.skp 5 0xE) ∧
    decode m 0xF30A = .ok (.ldVxK 3) ∧ decode m 0x0123 = .error (.unknownOpcode 0x0123)) ∧
  decode .docKeys 0x5121 = .ok (.seReg 1 2 1) ∧ decode .canonicalOnly 0x5121 = .error (.unknownOpcode 0x5121) ∧
  decode .docKeys 0x0000 = .ok (.cls 0) ∧ decode .canonicalOnly 0x0000 = .error (.unknownOpcode 0x0000)

/-- Decoding the encoding of a well-formed instruction gives it back, in both modes (R81, R89, R90). -/
def Obligations.DecodeOfEncode : Prop :=
  ∀ (m : DecodeMode) (i : Instr), i.wellFormed m = true → decode m (encode i) = .ok i

/-- A word that decodes is the encoding of what it decodes to, and that is well-formed: no bit is dropped. -/
def Obligations.EncodeOfDecode : Prop :=
  ∀ (m : DecodeMode) (op : Word) (i : Instr), decode m op = .ok i → i.wellFormed m = true ∧ encode i = op

/-- The decoder is the table's match and mask columns, for each mode (R91, opcode_table.json): what a word decodes
to is of a row the word fits, and a word that fits a row decodes to an instruction of that row. -/
def Obligations.DecodeFollowsOpcodeTable : Prop :=
  ∀ (m : DecodeMode) (op : Word),
    (∀ i : Instr, decode m op = .ok i → i.row.fits m op) ∧
    (∀ i : Instr, i.row.fits m op → ∃ j, decode m op = .ok j ∧ j.row = i.row)

/-- The 8 family is keyed on the low nibble (R85) and the F family on the low byte (R87); every other key is an
unknown opcode. The words are built from their digits. -/
def Obligations.EightAndFFamilyKeys : Prop :=
  ∀ (m : DecodeMode) (x y : Reg),
    let w8 (n : Nat) : Word := BitVec.ofNat 16 (0x8000 + 0x100 * x.val + 0x10 * y.val + n)
    let wF (kk : Nat) : Word := BitVec.ofNat 16 (0xF000 + 0x100 * x.val + kk)
    decode m (w8 0x0) = .ok (.ldReg x y) ∧ decode m (w8 0x1) = .ok (.orReg x y) ∧
    decode m (w8 0x2) = .ok (.andReg x y) ∧ decode m (w8 0x3) = .ok (.xorReg x y) ∧
    decode m (w8 0x4) = .ok (.addReg x y) ∧ decode m (w8 0x5) = .ok (.sub x y) ∧
    decode m (w8 0x6) = .ok (.shr x y) ∧ decode m (w8 0x7) = .ok (.subn x y) ∧
    decode m (w8 0xE) = .ok (.shl x y) ∧
    (∀ n ∈ [0x8, 0x9, 0xA, 0xB, 0xC, 0xD, 0xF], decode m (w8 n) = .error (.unknownOpcode (w8 n))) ∧
    decode m (wF 0x07) = .ok (.ldVxDt x) ∧ decode m (wF 0x0A) = .ok (.ldVxK x) ∧
    decode m (wF 0x15) = .ok (.ldDtVx x) ∧ decode m (wF 0x18) = .ok (.ldStVx x) ∧
    decode m (wF 0x1E) = .ok (.addI x) ∧ decode m (wF 0x29) = .ok (.ldF x) ∧
    decode m (wF 0x33) = .ok (.ldB x) ∧ decode m (wF 0x55) = .ok (.ldMemVx x) ∧
    decode m (wF 0x65) = .ok (.ldVxMem x) ∧
    (∀ kk < 0x100, kk ∉ [0x07, 0x0A, 0x15, 0x18, 0x1E, 0x29, 0x33, 0x55, 0x65] →
      decode m (wF kk) = .error (.unknownOpcode (wF kk)))

/-- The words DOC_KEYS rejects are exactly those of R88's list, by their digits. -/
def Obligations.RejectedWords : Prop :=
  ∀ op : Word,
    let t := op.toNat / 0x1000
    let y := op.toNat / 0x10 % 0x10
    let n := op.toNat % 0x10
    let kk := op.toNat % 0x100
    decode .docKeys op = .error (.unknownOpcode op) ↔
      (t = 0x0 ∧ n ≠ 0x0 ∧ n ≠ 0xE) ∨
      (t = 0x8 ∧ 0x8 ≤ n ∧ n ≠ 0xE) ∨
      (t = 0xE ∧ y ≠ 0x9 ∧ y ≠ 0xA) ∨
      (t = 0xF ∧ kk ∉ [0x07, 0x0A, 0x15, 0x18, 0x1E, 0x29, 0x33, 0x55, 0x65])

/-! ## The cycle -/

/-- R95, for a cycle that completes: when the word at PC decodes to `i`, the strobe runs `i` on the state with PC
two further, and then each timer above 0 goes down by one. -/
def Obligations.StepRunsTheDecodedInstruction : Prop :=
  ∀ (s t : State) (i : Instr), s.Executes i →
    exec i { s with pc := s.pc + 2 } = .next t → t.fault = none →
    step s = .next { t with
      dt := if 0 < t.dt.toNat then t.dt - 1 else 0
      st := if 0 < t.st.toNat then t.st - 1 else 0 }

/-- Where the handler raises a fault, the strobe answers the state it left, with no tick; where the model stops, so
does the strobe (R95, decisions D2 and D14, log 4). -/
def Obligations.StepPassesOnAFault : Prop :=
  ∀ (s : State) (i : Instr), s.Executes i →
    (∀ t r, exec i { s with pc := s.pc + 2 } = .next t → t.fault = some r → step s = .next t) ∧
    (∀ f, exec i { s with pc := s.pc + 2 } = .fault f → step s = .fault f)

/-- The fetch is big-endian (R63): inside memory, the byte at PC supplies bits 15..8 and the byte at PC + 1 bits
7..0. -/
def Obligations.FetchIsBigEndian : Prop :=
  ∀ s : State, s.pc.toNat + 1 ≤ 0xFFF →
    ∃ op, s.fetch = .ok op ∧
      op.toNat = 0x100 * (s.readByte s.pc.toNat).toNat + (s.readByte (s.pc.toNat + 1)).toNat

/-- A fetch outside memory: under FAULT the record names the lowest address outside, no word and no other fault,
and nothing else changes; under WRAP the bytes come from the addresses modulo 4096 (decisions D2 and D4). -/
def Obligations.FetchOutsideMemory : Prop :=
  ∀ s : State, s.fault = none → 0xFFF ≤ s.pc.toNat →
    (s.params.memOob = .fault →
      step s = .next { s with fault := some ⟨.addressOutOfRange, s.pc, none, some (max 0x1000 s.pc.toNat)⟩ }) ∧
    (s.params.memOob = .wrap →
      ∃ op, s.fetch = .ok op ∧
        op.toNat = 0x100 * (s.readByte (s.pc.toNat % 0x1000)).toNat +
          (s.readByte ((s.pc.toNat + 1) % 0x1000)).toNat)

/-- A fetched word with no handler faults UnknownOpcode, with the word, and nothing else changes (decisions D1, D2). -/
def Obligations.UnknownWordFaults : Prop :=
  ∀ (s : State) (op : Word) (e : DecodeError), s.fault = none → s.fetch = .ok op →
    decode s.params.decodeMode op = .error e →
    step s = .next { s with fault := some ⟨.unknownOpcode, s.pc, some op, none⟩ }

/-- Any number of strobes leaves a halted core as it is (decision D26). -/
def Obligations.HaltedCoreIsFrozen : Prop :=
  ∀ (n : Nat) (s : State) (r : FaultRecord), s.fault = some r → Sys2Proof.core.run n s = .next s

/-- A cycle that records a fault changes nothing but the record, whose pc is that of the cycle's start and whose
fields are those of its kind (decisions D2, D3). -/
def Obligations.FaultingCycleIsPrecise : Prop :=
  ∀ (s t : State) (r : FaultRecord), s.fault = none → step s = .next t → t.fault = some r →
    t = { s with fault := some r } ∧ r.pc = s.pc ∧ r.shaped

/-- Every step keeps the legal states: SP counts at most 16 entries, memory is canonical, and a halted core's record
is well shaped with pc = PC. -/
def Obligations.StepKeepsLegal : Prop :=
  ∀ s t : State, s.Legal → step s = .next t → t.Legal

/-- The state after power-on is legal, whatever the parameters. -/
def Obligations.PowerOnIsLegal : Prop :=
  State.reset.Legal ∧ ∀ p, (State.powerOn p).Legal

/-- From a legal state every strobe answers a next state: the core never stops by itself except by recording a
fault. -/
def Obligations.EveryStrobeAnswers : Prop :=
  ∀ s : State, s.Legal → ∃ t, step s = .next t

/-- PC after a completed cycle is PC + 2, but for jumps, call and return; skips may add 2 more and Fx0A may leave it
where it was (R97; modulo 2^16 is decision D6). -/
def Obligations.PcAfterACycle : Prop :=
  ∀ (s t : State) (i : Instr), Cycle s i t →
    match i with
    | .jp nnn | .call nnn => t.pc.toNat = nnn.toNat
    | .jpV0 nnn => t.pc.toNat = nnn.toNat + (s.readV 0).toNat
    | .ret _ => some t.pc = s.stack[s.sp.toNat - 1]?
    | .seImm _ _ | .sneImm _ _ | .seReg _ _ _ | .sneReg _ _ _ | .skp _ _ | .sknp _ _ =>
      t.pc = s.pc + 2 ∨ t.pc = s.pc + 4
    | .ldVxK _ => t.pc = s.pc + 2 ∨ t.pc = s.pc
    | _ => t.pc = s.pc + 2

/-- The timers after a completed cycle: each goes down by one if above 0 and else stays 0; Fx15 and Fx18 set one, and
the value just written is ticked (R240, decision D14). -/
def Obligations.TimersAfterACycle : Prop :=
  ∀ (s t : State) (i : Instr), Cycle s i t →
    (t.dt.toNat = match i with
      | .ldDtVx x => (s.readV x).toNat - 1
      | _ => s.dt.toNat - 1) ∧
    (t.st.toNat = match i with
      | .ldStVx x => (s.readV x).toNat - 1
      | _ => s.st.toNat - 1)

/-- The delay timer counts cycles: over n completed cycles none of which is Fx15, DT goes down by n and stops at 0
(R240, R281; decision D14). -/
def Obligations.DelayTimerCountsCycles : Prop :=
  ∀ (n : Nat) (s t : State), SafeRun (fun i => ∀ x, i ≠ .ldDtVx x) n s t → t.dt.toNat = s.dt.toNat - n

/-- Who writes what (R24, R33, R38, R40, R47, R75, R174): no other instruction changes the element. -/
def Obligations.OnlyTheNamedInstructionsWrite : Prop :=
  ∀ (i : Instr) (s t : State), Completes i s t →
    (t.i ≠ s.i → ∃ a x, i = .ldI a ∨ i = .addI x ∨ i = .ldF x) ∧
    (t.sp ≠ s.sp ∨ t.stack ≠ s.stack → ∃ a xy, i = .call a ∨ i = .ret xy) ∧
    (t.dt ≠ s.dt → ∃ x, i = .ldDtVx x) ∧
    (t.st ≠ s.st → ∃ x, i = .ldStVx x) ∧
    (t.mem ≠ s.mem → ∃ x, i = .ldB x ∨ i = .ldMemVx x) ∧
    (t.disp ≠ s.disp → ∃ xy x y n, i = .cls xy ∨ i = .drw x y n) ∧
    (t.rand ≠ s.rand → ∃ x kk, i = .rnd x kk) ∧
    t.keys = s.keys ∧ t.params = s.params

/-- VF changes only by a flag instruction or as the named destination, Fx65 counting when its range reaches VF
(R31; that 8xy0 to 8xy3 write no flag is decision D9). -/
def Obligations.WhoMayChangeVF : Prop :=
  ∀ (i : Instr) (s t : State), Completes i s t → t.readV regF ≠ s.readV regF →
    match i with
    | .addReg _ _ | .sub _ _ | .subn _ _ | .shr _ _ | .shl _ _ | .drw _ _ _ => True
    | .ldImm x _ | .addImm x _ | .ldReg x _ | .orReg x _ | .andReg x _ | .xorReg x _ | .rnd x _
    | .ldVxDt x | .ldVxK x | .ldVxMem x => x = regF
    | _ => False

/-- Call-stack entries at SP and above are not observable (R38): two states that differ only there stay so, cycle by
cycle, and everything else about them stays equal. -/
def Obligations.FreeStackSlotsAreUnobservable : Prop :=
  ∀ (s t : State) (other : CallStack), s.sp.toNat ≤ 16 →
    (∀ j : Fin 16, j.val < s.sp.toNat → other[j] = s.stack[j]) →
    step s = .next t →
    ∃ other' : CallStack, (∀ j : Fin 16, j.val < t.sp.toNat → other'[j] = t.stack[j]) ∧
      step { s with stack := other } = .next { t with stack := other' }

/-! ## Control flow -/

/-- 1nnn (R110). -/
def Obligations.JumpResult : Prop :=
  ∀ (nnn : Addr12) (s : State), ∃ t, Completes (.jp nnn) s t ∧ t.pc.toNat = nnn.toNat ∧
    UnchangedBut (fun e => e = .pc) s t

/-- 2nnn (R111): the return address goes to the free slot; with 16 entries held it is StackOverflow (decisions D1,
D2). With more, which R37 calls unreachable, the model stops by name: its own choice (log 4). -/
def Obligations.CallResult : Prop :=
  ∀ (nnn : Addr12) (s : State),
    (∀ j : Fin 16, s.sp.toNat = j.val →
      ∃ t, Completes (.call nnn) s t ∧ t.stack[j] = s.pc ∧ t.sp.toNat = j.val + 1 ∧ t.pc.toNat = nnn.toNat ∧
        UnchangedBut (fun e => e = .pc ∨ e = .sp ∨ e = .slot j) s t) ∧
    (s.sp.toNat = 16 → Raises (.call nnn) s .stackOverflow none) ∧
    (16 < s.sp.toNat → exec (.call nnn) s = .fault (.stackPointerOutOfRange s.sp))

/-- 00EE (R112): the entry below SP becomes PC and is not cleared; with no entry held it is StackUnderflow
(decisions D1, D2, D22). With more than 16 the model stops by name: its own choice (log 4). -/
def Obligations.ReturnResult : Prop :=
  ∀ (xy : Byte) (s : State),
    (∀ j : Fin 16, s.sp.toNat = j.val + 1 →
      ∃ t, Completes (.ret xy) s t ∧ t.pc = s.stack[j] ∧ t.sp.toNat = j.val ∧
        UnchangedBut (fun e => e = .pc ∨ e = .sp) s t) ∧
    (s.sp.toNat = 0 → Raises (.ret xy) s .stackUnderflow none) ∧
    (16 < s.sp.toNat → exec (.ret xy) s = .fault (.stackPointerOutOfRange s.sp))

/-- A return undoes a call (R111, R112): from any state with the call's stack and SP, RET goes to the instruction
after the call, and a call made in between and returned from does not disturb it. -/
def Obligations.ReturnAfterCall : Prop :=
  ∀ (a b : Addr12) (xy₁ xy₂ : Byte) (s t u : State), s.sp.toNat < 15 →
    Completes (.call a) s t → u.stack = t.stack → u.sp = t.sp →
    ∃ u₁ u₂ u₃, Completes (.call b) u u₁ ∧ Completes (.ret xy₁) u₁ u₂ ∧ Completes (.ret xy₂) u₂ u₃ ∧
      u₂.pc = u.pc ∧ u₃.pc = s.pc ∧ u₃.sp = s.sp

/-- 3xkk and 4xkk (R113, R114). -/
def Obligations.SkipOnImmediate : Prop :=
  ∀ (x : Reg) (kk : Byte) (s : State),
    (∃ t, Completes (.seImm x kk) s t ∧ t.pc = (if s.readV x = kk then s.pc + 2 else s.pc) ∧
      UnchangedBut (fun e => e = .pc) s t) ∧
    (∃ t, Completes (.sneImm x kk) s t ∧ t.pc = (if s.readV x = kk then s.pc else s.pc + 2) ∧
      UnchangedBut (fun e => e = .pc) s t)

/-- 5xy0 and 9xy0 (R115, R116), whatever their low nibble. -/
def Obligations.SkipOnRegister : Prop :=
  ∀ (x y : Reg) (n : Nibble) (s : State),
    (∃ t, Completes (.seReg x y n) s t ∧ t.pc = (if s.readV x = s.readV y then s.pc + 2 else s.pc) ∧
      UnchangedBut (fun e => e = .pc) s t) ∧
    (∃ t, Completes (.sneReg x y n) s t ∧ t.pc = (if s.readV x = s.readV y then s.pc else s.pc + 2) ∧
      UnchangedBut (fun e => e = .pc) s t)

/-- Bnnn (R161): nnn + V0, never Vx, with no wrap; at most 0x10FE. -/
def Obligations.JumpWithOffset : Prop :=
  ∀ (nnn : Addr12) (s : State), ∃ t, Completes (.jpV0 nnn) s t ∧
    t.pc.toNat = nnn.toNat + (s.readV 0).toNat ∧ t.pc.toNat ≤ 0x10FE ∧ UnchangedBut (fun e => e = .pc) s t

/-! ## Moves, arithmetic, logic, shifts -/

/-- 6xkk (R130). -/
def Obligations.LoadImmediate : Prop :=
  ∀ (x : Reg) (kk : Byte) (s : State), ∃ t, Completes (.ldImm x kk) s t ∧ t.readV x = kk ∧
    UnchangedBut (fun e => e = .v x) s t

/-- 7xkk (R131): modulo 256, VF unchanged unless it is the destination. -/
def Obligations.AddImmediate : Prop :=
  ∀ (x : Reg) (kk : Byte) (s : State), ∃ t, Completes (.addImm x kk) s t ∧
    (t.readV x).toNat = ((s.readV x).toNat + kk.toNat) % 256 ∧ UnchangedBut (fun e => e = .v x) s t

/-- 8xy0 to 8xy3 (R132 to R135), bit by bit. That VF is left alone unless it is the destination is the spec's
decision D9 (R136). -/
def Obligations.MoveAndLogic : Prop :=
  ∀ (x y : Reg) (s : State),
    (∃ t, Completes (.ldReg x y) s t ∧ t.readV x = s.readV y ∧ UnchangedBut (fun e => e = .v x) s t) ∧
    (∃ t, Completes (.orReg x y) s t ∧
      (∀ b < 8, (t.readV x).getLsbD b = ((s.readV x).getLsbD b || (s.readV y).getLsbD b)) ∧
      UnchangedBut (fun e => e = .v x) s t) ∧
    (∃ t, Completes (.andReg x y) s t ∧
      (∀ b < 8, (t.readV x).getLsbD b = ((s.readV x).getLsbD b && (s.readV y).getLsbD b)) ∧
      UnchangedBut (fun e => e = .v x) s t) ∧
    (∃ t, Completes (.xorReg x y) s t ∧
      (∀ b < 8, (t.readV x).getLsbD b = ((s.readV x).getLsbD b ^^ (s.readV y).getLsbD b)) ∧
      UnchangedBut (fun e => e = .v x) s t)

/-- 8xy4 (R144, R140), every form under every VF_ALIAS_ORDER: the 9-bit sum's low byte is the result and its carry
the flag; with x = F the result is what VF keeps, but under FLAG_LAST the flag. -/
def Obligations.AddWithCarry : Prop :=
  ∀ (x y : Reg) (s : State),
    let a := (s.readV x).toNat
    let b := (s.readV y).toNat
    let r := (a + b) % 256
    let f := if 255 < a + b then 1 else 0
    ∃ t, Completes (.addReg x y) s t ∧ UnchangedBut (fun e => e = .v x ∨ e = .v regF) s t ∧
      (x ≠ regF → (t.readV x).toNat = r ∧ (t.readV regF).toNat = f) ∧
      (x = regF → (t.readV regF).toNat = match s.params.vfAliasOrder with
        | .resultLast | .sequential => r
        | .flagLast => f)

/-- 8xy5 (R145, R140), every form under every VF_ALIAS_ORDER: the flag is 1 exactly when Vx is strictly greater. -/
def Obligations.SubtractWithBorrow : Prop :=
  ∀ (x y : Reg) (s : State),
    let a := (s.readV x).toNat
    let b := (s.readV y).toNat
    let r := (256 + a - b) % 256
    let f := if b < a then 1 else 0
    ∃ t, Completes (.sub x y) s t ∧ UnchangedBut (fun e => e = .v x ∨ e = .v regF) s t ∧
      (x ≠ regF → (t.readV regF).toNat = f) ∧
      (x ≠ regF → (t.readV x).toNat =
        if s.params.vfAliasOrder = .sequential ∧ y = regF then (256 + a - f) % 256 else r) ∧
      (x = regF → (t.readV regF).toNat = match s.params.vfAliasOrder with
        | .resultLast => r
        | .flagLast => f
        | .sequential => if y = regF then 0 else (256 + f - b) % 256)

/-- 8xy7 (R146, R140), every form under every VF_ALIAS_ORDER: Vy - Vx, the flag 1 exactly when Vy is strictly
greater. -/
def Obligations.ReverseSubtract : Prop :=
  ∀ (x y : Reg) (s : State),
    let a := (s.readV x).toNat
    let b := (s.readV y).toNat
    let r := (256 + b - a) % 256
    let f := if a < b then 1 else 0
    ∃ t, Completes (.subn x y) s t ∧ UnchangedBut (fun e => e = .v x ∨ e = .v regF) s t ∧
      (x ≠ regF → (t.readV regF).toNat = f) ∧
      (x ≠ regF → (t.readV x).toNat =
        if s.params.vfAliasOrder = .sequential ∧ y = regF then (256 + f - a) % 256 else r) ∧
      (x = regF → (t.readV regF).toNat = match s.params.vfAliasOrder with
        | .resultLast => r
        | .flagLast => f
        | .sequential => if y = regF then 0 else (256 + b - f) % 256)

/-- 8xy6 (R150, R140), every form under every VF_ALIAS_ORDER; y is neither read nor written. -/
def Obligations.ShiftRight : Prop :=
  ∀ (x y : Reg) (s : State),
    let a := (s.readV x).toNat
    ∃ t, Completes (.shr x y) s t ∧ UnchangedBut (fun e => e = .v x ∨ e = .v regF) s t ∧
      (x ≠ regF → (t.readV x).toNat = a / 2 ∧ (t.readV regF).toNat = a % 2) ∧
      (x = regF → (t.readV regF).toNat = match s.params.vfAliasOrder with
        | .resultLast => a / 2
        | .flagLast => a % 2
        | .sequential => 0)

/-- 8xyE (R151, R140), every form under every VF_ALIAS_ORDER: the flag is the pre-shift LOW bit; y is not used. -/
def Obligations.ShiftLeft : Prop :=
  ∀ (x y : Reg) (s : State),
    let a := (s.readV x).toNat
    ∃ t, Completes (.shl x y) s t ∧ UnchangedBut (fun e => e = .v x ∨ e = .v regF) s t ∧
      (x ≠ regF → (t.readV x).toNat = 2 * a % 256 ∧ (t.readV regF).toNat = a % 2) ∧
      (x = regF → (t.readV regF).toNat = match s.params.vfAliasOrder with
        | .resultLast => 2 * a % 256
        | .flagLast => a % 2
        | .sequential => 2 * (a % 2))

/-! ## Index and random -/

/-- Annn (R160). -/
def Obligations.LoadIndex : Prop :=
  ∀ (nnn : Addr12) (s : State), ∃ t, Completes (.ldI nnn) s t ∧ t.i.toNat = nnn.toNat ∧
    UnchangedBut (fun e => e = .i) s t

/-- Fx1E and Fx29 (R203, R204; the widths are decision D7). -/
def Obligations.IndexArithmetic : Prop :=
  ∀ (x : Reg) (s : State),
    (∃ t, Completes (.addI x) s t ∧ t.i.toNat = (s.i.toNat + (s.readV x).toNat) % 0x10000 ∧
      UnchangedBut (fun e => e = .i) s t) ∧
    (∃ t, Completes (.ldF x) s t ∧ t.i.toNat = 0x050 + 5 * (s.readV x).toNat ∧
      UnchangedBut (fun e => e = .i) s t)

/-- Cxkk (R162, R24): for every byte d the RAND port gives next, Vx = d AND kk and exactly one draw is consumed; where
the host has injected none, d is the free value, of which nothing is known. The port's form, a list and a draw counter,
is the model's own choice (log 3). -/
def Obligations.RandomByteIsMasked : Prop :=
  ∀ (x : Reg) (kk : Byte) (s : State),
    ∃ (t : State) (d : Byte), Completes (.rnd x kk) s t ∧
      (∀ d' ds, s.rand.injected = d' :: ds → d = d' ∧ t.rand.injected = ds) ∧
      (s.rand.injected = [] → d = Config.freeRandByte s.rand.draws ∧ t.rand.injected = []) ∧
      (∀ b < 8, (t.readV x).getLsbD b = (d.getLsbD b && kk.getLsbD b)) ∧
      t.rand.draws = s.rand.draws + 1 ∧ UnchangedBut (fun e => e = .v x ∨ e = .rand) s t

/-! ## Display -/

/-- 00E0 (R170), whatever bits DOC_KEYS ignores. -/
def Obligations.ClearScreen : Prop :=
  ∀ (xy : Byte) (s : State), ∃ t, Completes (.cls xy) s t ∧ (∀ x y, t.pixel x y = false) ∧
    UnchangedBut (fun e => ∃ x y, e = .pixel x y) s t

/-- Dxyn (R171 to R173), every form: pixels are XORed with what the sprite covers, VF ends 1 exactly when a covered
pixel was on, and nothing else changes. The coordinates are VF's old value where VF names one, but 0 under SEQUENTIAL
(decision D8); n = 0 draws nothing and clears VF (decision D24); addresses in range, or wrapping (decision D4). -/
def Obligations.DrawXorsTheSprite : Prop :=
  ∀ (x y : Reg) (n : Nibble) (s : State), s.dataInRange n.toNat →
    let coord (z : Reg) : Byte := if s.params.vfAliasOrder = .sequential ∧ z = regF then 0 else s.readV z
    let on (px : Fin 64) (py : Fin 32) : Prop := s.covered (coord x) (coord y) n.toNat px py
    ∃ t, Completes (.drw x y n) s t ∧
      (∀ px py, on px py → t.pixel px py = !s.pixel px py) ∧
      (∀ px py, ¬ on px py → t.pixel px py = s.pixel px py) ∧
      ((∃ px py, on px py ∧ s.pixel px py = true) → t.readV regF = 1) ∧
      ((∀ px py, on px py → s.pixel px py = false) → t.readV regF = 0) ∧
      UnchangedBut (fun e => e = .v regF ∨ ∃ px py, e = .pixel px py) s t

/-- Drawing the same sprite twice at the same place restores the display (R171); on a clear display the second draw
ends with VF = 1 when the sprite has a set bit (R171's corner sentence). That on any display it does so exactly when a
covered pixel was off at first, so that VF ends 0 where all were on, is the model's own reading of R171's pseudocode and
R173, against the letter of that sentence (log 12, DEDUCED). VF is no coordinate, since the first draw writes it. -/
def Obligations.DrawTwiceRestores : Prop :=
  ∀ (x y : Reg) (n : Nibble) (s : State), s.dataInRange n.toNat → x ≠ regF → y ≠ regF →
    let on (px : Fin 64) (py : Fin 32) : Prop := s.covered (s.readV x) (s.readV y) n.toNat px py
    ∃ t u, Completes (.drw x y n) s t ∧ Completes (.drw x y n) t u ∧ u.disp = s.disp ∧
      ((∃ px py, on px py ∧ s.pixel px py = false) → u.readV regF = 1) ∧
      ((∀ px py, on px py → s.pixel px py = true) → u.readV regF = 0) ∧
      ((∀ px py, s.pixel px py = false) → (∃ r < n.toNat, s.readByte ((s.i.toNat + r) % 0x1000) ≠ 0) →
        u.readV regF = 1)

/-! ## Keypad -/

/-- Ex9E and ExA1 (R190, R191, R193): with a key index in range, or reduced under MASK, SKP skips when the key is
pressed and SKNP when it is not; out of range under FAULT both are KeyIndexOutOfRange (decisions D1, D2, D10). -/
def Obligations.SkipOnKey : Prop :=
  ∀ (x : Reg) (n : Nibble) (s : State),
    (∀ k : Fin 16, (s.readV x).toNat = k.val ∨
        (s.params.keyOob = .mask ∧ (s.readV x).toNat % 16 = k.val) →
      (∃ t, Completes (.skp x n) s t ∧ t.pc = (if s.keys[k] then s.pc + 2 else s.pc) ∧
        UnchangedBut (fun e => e = .pc) s t) ∧
      (∃ t, Completes (.sknp x n) s t ∧ t.pc = (if s.keys[k] then s.pc else s.pc + 2) ∧
        UnchangedBut (fun e => e = .pc) s t)) ∧
    (s.params.keyOob = .fault → 0xF < (s.readV x).toNat →
      Raises (.skp x n) s .keyIndexOutOfRange (some (s.readV x).toNat) ∧
      Raises (.sknp x n) s .keyIndexOutOfRange (some (s.readV x).toNat))

/-- Fx0A (R192): the lowest pressed key goes to Vx; with none pressed PC goes back to this instruction. -/
def Obligations.WaitForKey : Prop :=
  ∀ (x : Reg) (s : State),
    (∀ k : Fin 16, s.keys[k] = true → (∀ j : Fin 16, j < k → s.keys[j] = false) →
      ∃ t, Completes (.ldVxK x) s t ∧ (t.readV x).toNat = k.val ∧ UnchangedBut (fun e => e = .v x) s t) ∧
    ((∀ k : Fin 16, s.keys[k] = false) →
      ∃ t, Completes (.ldVxK x) s t ∧ t.pc = s.pc - 2 ∧ UnchangedBut (fun e => e = .pc) s t)

/-- Waiting cycles change nothing but the timers, and the same instruction is fetched again, for any number of cycles
with no key pressed (R192, R99; that the timers tick is decision D14). -/
def Obligations.KeyWaitRepeats : Prop :=
  ∀ (k : Nat) (x : Reg) (s : State), s.Executes (.ldVxK x) → (∀ j : Fin 16, s.keys[j] = false) →
    ∃ t, Sys2Proof.core.run k s = .next t ∧ t.Executes (.ldVxK x) ∧ t.dt.toNat = s.dt.toNat - k ∧
      t.st.toNat = s.st.toNat - k ∧ UnchangedBut (fun e => e = .dt ∨ e = .st) s t

/-! ## Timers, index and memory -/

/-- Fx07 (R200): Vx is DT as the cycle began; the tick comes after. -/
def Obligations.ReadDelayTimer : Prop :=
  ∀ (x : Reg) (s : State),
    (∃ t, Completes (.ldVxDt x) s t ∧ t.readV x = s.dt ∧ UnchangedBut (fun e => e = .v x) s t) ∧
    (∀ t, Cycle s (.ldVxDt x) t → t.readV x = s.dt ∧ t.dt.toNat = s.dt.toNat - 1)

/-- Fx15 and Fx18 (R201, R202), before the tick of the same cycle, which TimersAfterACycle states. -/
def Obligations.SetTimers : Prop :=
  ∀ (x : Reg) (s : State),
    (∃ t, Completes (.ldDtVx x) s t ∧ t.dt = s.readV x ∧ UnchangedBut (fun e => e = .dt) s t) ∧
    (∃ t, Completes (.ldStVx x) s t ∧ t.st = s.readV x ∧ UnchangedBut (fun e => e = .st) s t)

/-- Fx33 (R205): the decimal digits at I, I+1, I+2, each address as R62 gives it, and no other byte. That I is
unchanged is decision D25. -/
def Obligations.StoreBcd : Prop :=
  ∀ (x : Reg) (s : State), Memory.wf s.params.fontTable s.mem = true → s.dataInRange 3 →
    let v := (s.readV x).toNat
    let addr (k : Nat) : Nat := (s.i.toNat + k) % 0x1000
    ∃ t, Completes (.ldB x) s t ∧
      (t.readByte (addr 0)).toNat = v / 100 ∧ (t.readByte (addr 1)).toNat = v / 10 % 10 ∧
      (t.readByte (addr 2)).toNat = v % 10 ∧
      UnchangedBut (fun e => ∃ k < 3, e = .byte (addr k)) s t

/-- Fx55 (R208): V0..Vx, x included, at I..I+x, each address as R62 gives it, and no other byte. That I is unchanged
is decision D25. -/
def Obligations.BlockStore : Prop :=
  ∀ (x : Reg) (s : State), Memory.wf s.params.fontTable s.mem = true → s.dataInRange (x.val + 1) →
    let addr (k : Nat) : Nat := (s.i.toNat + k) % 0x1000
    ∃ t, Completes (.ldMemVx x) s t ∧
      (∀ j : Reg, j ≤ x → t.readByte (addr j.val) = s.readV j) ∧
      UnchangedBut (fun e => ∃ k ≤ x.val, e = .byte (addr k)) s t

/-- Fx65 (R209): V0..Vx, x included, from I..I+x, each address as R62 gives it, and no other register. That I is
unchanged is decision D25. -/
def Obligations.BlockLoad : Prop :=
  ∀ (x : Reg) (s : State), s.dataInRange (x.val + 1) →
    let addr (k : Nat) : Nat := (s.i.toNat + k) % 0x1000
    ∃ t, Completes (.ldVxMem x) s t ∧
      (∀ j : Reg, j ≤ x → t.readV j = s.readByte (addr j.val)) ∧
      UnchangedBut (fun e => ∃ j : Reg, j ≤ x ∧ e = .v j) s t

/-- Under FAULT an access of which some address is 0x1000 or more is AddressOutOfRange with the lowest such address,
and nothing is written (R62; decisions D1, D2, D4). Dxyn with n = 0 forms no address. -/
def Obligations.DataAddressFaults : Prop :=
  ∀ (x y : Reg) (n : Nibble) (s : State), s.params.memOob = .fault →
    let lowest : Option Nat := some (max 0x1000 s.i.toNat)
    (n ≠ 0 → 0x1000 < s.i.toNat + n.toNat → Raises (.drw x y n) s .addressOutOfRange lowest) ∧
    (0x1000 < s.i.toNat + 3 → Raises (.ldB x) s .addressOutOfRange lowest) ∧
    (0x1000 < s.i.toNat + (x.val + 1) →
      Raises (.ldMemVx x) s .addressOutOfRange lowest ∧ Raises (.ldVxMem x) s .addressOutOfRange lowest)

/-- A block load after a block store gives the registers back, whatever happened to them in between, as long as I,
memory and the parameters are those the store left (R209, R210; that I is unchanged is decision D25). -/
def Obligations.LoadAfterStore : Prop :=
  ∀ (x : Reg) (s t u : State), Memory.wf s.params.fontTable s.mem = true → s.dataInRange (x.val + 1) →
    Completes (.ldMemVx x) s t → u.i = t.i → u.mem = t.mem → u.params = t.params →
    ∃ w, Completes (.ldVxMem x) u w ∧ ∀ j : Reg, j ≤ x → w.readV j = s.readV j

/-- Stored bytes are what a later fetch reads, with nothing in between needed to make it so (R73, R63): whatever else
happened since Fx55 stored, when memory and the parameters are those it left and PC is at a stored byte with another
stored byte after it, the word fetched is made of the two registers stored there. -/
def Obligations.StoredBytesAreFetched : Prop :=
  ∀ (x j : Reg) (s t u : State), Memory.wf s.params.fontTable s.mem = true → s.dataInRange (x.val + 1) →
    Completes (.ldMemVx x) s t → u.mem = t.mem → u.params = t.params →
    j < x → u.pc.toNat = s.i.toNat + j.val → u.pc.toNat + 1 ≤ 0xFFF →
    ∃ op, u.fetch = .ok op ∧ op.toNat = 0x100 * (s.readV j).toNat + (s.readV (j + 1)).toNat

/-! ## Reset and boot -/

/-- The reset values of the registers, the stack, the timers and the display (R32, R34, R36, R39, R41, R46), for every
value of the parameters. -/
def Obligations.ResetValues : Prop :=
  ∀ p : Params,
    let s := State.powerOn p
    (∀ x, s.readV x = 0) ∧ s.i = 0 ∧ s.pc = 0x200 ∧ s.sp = 0 ∧ (∀ j : Fin 16, s.stack[j] = 0) ∧
    s.dt = 0 ∧ s.st = 0 ∧ (∀ x y, s.pixel x y = false)

/-- The reset memory, keypad and fault record (R44, R47, R49). That FONT_TABLE is a parameter is R8 and log 1; that the
RAND fields start empty is the model's choice (log 3). -/
def Obligations.ResetMemoryAndPorts : Prop :=
  ∀ p : Params,
    let s := State.powerOn p
    (∀ j : Fin 80, s.readByte (0x050 + j.val) = p.fontTable[j]) ∧
    (∀ a, a < 0x050 ∨ 0x0A0 ≤ a → s.readByte a = 0) ∧
    (∀ k : Fin 16, s.keys[k] = false) ∧ s.fault = none ∧ s.params = p ∧ s.rand = ⟨[], 0⟩

/-- The boot sequence (R271 to R273; decision D19): it starts from zeroed memory, puts the font at 0x050 and the
program, of at most 3584 bytes, at 0x200, leaves every other byte 0, and is otherwise the reset state; with an empty
program it is the reset state (decision D20). -/
def Obligations.BootLoadsFontAndProgram : Prop :=
  ∀ (p : Params) (image : List Byte), image.length ≤ 3584 →
    (∀ a, a < 0x1000 → (State.zeroed p).readByte a = 0) ∧
    ∃ s, boot p (some image) = .ok s ∧
      (∀ j : Fin 80, s.readByte (0x050 + j.val) = p.fontTable[j]) ∧
      (∀ (j : Nat) (h : j < image.length), s.readByte (0x200 + j) = image[j]) ∧
      (∀ a, a < 0x050 ∨ (0x0A0 ≤ a ∧ a < 0x200) ∨ 0x200 + image.length ≤ a → s.readByte a = 0) ∧
      UnchangedBut (fun e => ∃ j < image.length, e = .byte (0x200 + j)) (State.powerOn p) s ∧
      s.Legal ∧ (image = [] → s = State.powerOn p)

/-- A program that is too long or cannot be read aborts startup (R274, R275). -/
def Obligations.BootErrors : Prop :=
  ∀ p : Params,
    (∀ image : List Byte, 3584 < image.length → boot p (some image) = .error .romTooLarge) ∧
    boot p none = .error .romUnreadable ∧ BootError.romUnreadable ≠ BootError.romTooLarge

/-! ## Ports -/

/-- The host's two moves between cycles. Setting a key changes that flag alone (the KEY port of R25). That the RAND port
is a list of bytes, to whose end the host's are appended, is the model's own choice (log 3, DESIGN CHOICE): R24 says
only that the source is injectable. Nothing outside that port changes. -/
def Obligations.HostPorts : Prop :=
  ∀ (s : State) (k : Fin 16) (pressed : Bool) (bs : List Byte),
    (s.setKey k pressed).keys[k] = pressed ∧ UnchangedBut (fun e => e = .key k) s (s.setKey k pressed) ∧
    (s.injectRand bs).rand.injected = s.rand.injected ++ bs ∧
    UnchangedBut (fun e => e = .rand) s (s.injectRand bs)
end

