-- ==== Sys2Proof/Laws/Memory.lean ====
section
/-! SUPPORT. The laws of memory (spec/20_memory.md R70; log 10): read after write, and the canonical form. -/

namespace Sys2Proof.Machine

theorem Memory.read_push (font : FontTable) (m : Memory) (a c : Nat) (b : Byte)
    (h : c = a → Memory.read font m a = Memory.unlisted font a) :
    Memory.read font (Memory.push font m a b) c = if c = a then b else Memory.read font m c := by
  unfold Memory.push
  by_cases hb : b = Memory.unlisted font a
  · by_cases hc : c = a
    · subst hc; simp [hb, h rfl]
    · simp [hb, hc]
  · simp [hb, Memory.read, eq_comm (a := a)]

/-- An address below the first one listed reads as unlisted. -/
theorem Memory.read_of_wfFrom (font : FontTable) (m : Memory) (lo a : Nat)
    (h : Memory.wfFrom font lo m = true) (ha : a < lo) :
    Memory.read font m a = Memory.unlisted font a := by
  induction m generalizing lo with
  | nil => rfl
  | cons c m ih =>
    obtain ⟨k, b⟩ := c
    simp only [Memory.wfFrom, Bool.and_eq_true, decide_eq_true_eq] at h
    have hk : k ≠ a := by omega
    simp only [Memory.read, hk, if_false]
    exact ih (k + 1) h.2 (by omega)

/-- A canonical list is canonical from any lower start. -/
theorem Memory.wfFrom_mono (font : FontTable) (m : Memory) (lo lo' : Nat)
    (h : Memory.wfFrom font lo m = true) (hl : lo' ≤ lo) : Memory.wfFrom font lo' m = true := by
  cases m with
  | nil => rfl
  | cons c m =>
    simp only [Memory.wfFrom, Bool.and_eq_true, decide_eq_true_eq] at h ⊢
    exact ⟨⟨⟨by omega, h.1.1.2⟩, h.1.2⟩, h.2⟩

theorem Memory.wfFrom_push (font : FontTable) (m : Memory) (lo a : Nat) (b : Byte)
    (h : Memory.wfFrom font (a + 1) m = true) (hl : lo ≤ a) (ha : a < Config.memSize) :
    Memory.wfFrom font lo (Memory.push font m a b) = true := by
  unfold Memory.push
  by_cases hb : b = Memory.unlisted font a
  · simpa [hb] using Memory.wfFrom_mono font m (a + 1) lo h (by omega)
  · simp [hb, Memory.wfFrom, h, hl, ha]

theorem Memory.wfFrom_write (font : FontTable) (m : Memory) (lo a : Nat) (b : Byte)
    (h : Memory.wfFrom font lo m = true) (hl : lo ≤ a) (ha : a < Config.memSize) :
    Memory.wfFrom font lo (Memory.write font m a b) = true := by
  induction m generalizing lo with
  | nil => exact Memory.wfFrom_push font [] lo a b rfl hl ha
  | cons c m ih =>
    obtain ⟨k, d⟩ := c
    have h' := h
    simp only [Memory.wfFrom, Bool.and_eq_true, decide_eq_true_eq] at h
    obtain ⟨⟨⟨hk, hk'⟩, hd⟩, hm⟩ := h
    simp only [Memory.write]
    split
    · rename_i hlt
      refine Memory.wfFrom_push font _ lo a b ?_ hl ha
      simp only [Memory.wfFrom, Bool.and_eq_true, decide_eq_true_eq]
      exact ⟨⟨⟨hlt, hk'⟩, hd⟩, hm⟩
    · split
      · rename_i heq
        subst heq
        exact Memory.wfFrom_push font m lo a b hm hl ha
      · simp only [Memory.wfFrom, Bool.and_eq_true, decide_eq_true_eq]
        exact ⟨⟨⟨hk, hk'⟩, hd⟩, ih (k + 1) hm (by omega)⟩

/-- Every write keeps the canonical form. -/
theorem Memory.wf_write (font : FontTable) (m : Memory) (a : Nat) (b : Byte)
    (h : Memory.wf font m = true) (ha : a < Config.memSize) :
    Memory.wf font (Memory.write font m a b) = true :=
  Memory.wfFrom_write font m 0 a b h (Nat.zero_le a) ha

theorem Memory.read_writeFrom (font : FontTable) (m : Memory) (lo a c : Nat) (b : Byte)
    (h : Memory.wfFrom font lo m = true) :
    Memory.read font (Memory.write font m a b) c = if c = a then b else Memory.read font m c := by
  induction m generalizing lo with
  | nil => exact Memory.read_push font [] a c b (fun _ => rfl)
  | cons e m ih =>
    obtain ⟨k, d⟩ := e
    have h' := h
    simp only [Memory.wfFrom, Bool.and_eq_true, decide_eq_true_eq] at h
    obtain ⟨⟨⟨hk, hk'⟩, hd⟩, hm⟩ := h
    simp only [Memory.write]
    split
    · rename_i hlt
      refine Memory.read_push font _ a c b (fun _ => Memory.read_of_wfFrom font _ k a ?_ hlt)
      simp only [Memory.wfFrom, Bool.and_eq_true, decide_eq_true_eq]
      exact ⟨⟨⟨le_refl k, hk'⟩, hd⟩, hm⟩
    · split
      · rename_i heq
        subst heq
        rw [Memory.read_push font m a c b (fun _ => Memory.read_of_wfFrom font m (a + 1) a hm (by omega))]
        by_cases hc : c = a
        · simp [hc]
        · simp [hc, Memory.read, Ne.symm hc]
      · rename_i hne
        simp only [Memory.read, ih (k + 1) hm]
        by_cases hkc : k = c
        · subst hkc; simp [Ne.symm hne]
        · simp [hkc]

/-- Read after write, in a canonical memory. -/
theorem Memory.read_write (font : FontTable) (m : Memory) (a c : Nat) (b : Byte)
    (h : Memory.wf font m = true) :
    Memory.read font (Memory.write font m a b) c = if c = a then b else Memory.read font m c :=
  Memory.read_writeFrom font m 0 a c b h

/-- Canonical memories that read the same inside memory are the same data. -/
theorem Memory.extFrom (font : FontTable) (m₁ m₂ : Memory) (lo : Nat) (h₁ : Memory.wfFrom font lo m₁ = true)
    (h₂ : Memory.wfFrom font lo m₂ = true)
    (h : ∀ a < 0x1000, Memory.read font m₁ a = Memory.read font m₂ a) : m₁ = m₂ := by
  induction m₁ generalizing m₂ lo with
  | nil =>
    cases m₂ with
    | nil => rfl
    | cons c m =>
      simp only [Memory.wfFrom, Bool.and_eq_true, decide_eq_true_eq] at h₂
      have := h c.1 h₂.1.1.2
      simp only [Memory.read, if_true] at this
      simp [this] at h₂
  | cons c m ih =>
    obtain ⟨k, b⟩ := c
    simp only [Memory.wfFrom, Bool.and_eq_true, decide_eq_true_eq] at h₁
    obtain ⟨⟨⟨-, hk⟩, hne⟩, hm⟩ := h₁
    cases m₂ with
    | nil =>
      have := h k hk
      simp only [Memory.read, if_true] at this
      simp [this] at hne
    | cons d m' =>
      obtain ⟨k', b'⟩ := d
      simp only [Memory.wfFrom, Bool.and_eq_true, decide_eq_true_eq] at h₂
      obtain ⟨⟨⟨-, hk'⟩, hne'⟩, hm'⟩ := h₂
      have hkk : k = k' := by
        rcases Nat.lt_trichotomy k k' with hl | he | hg
        · have := h k hk
          simp only [Memory.read, if_true, (show k' ≠ k by omega), if_false] at this
          rw [Memory.read_of_wfFrom font m' (k' + 1) k hm' (by omega)] at this
          simp [this] at hne
        · exact he
        · have := h k' hk'
          simp only [Memory.read, if_true, (show k ≠ k' by omega), if_false] at this
          rw [Memory.read_of_wfFrom font m (k + 1) k' hm (by omega)] at this
          simp [← this] at hne'
      subst hkk
      have hb : b = b' := by simpa [Memory.read] using h k hk
      subst hb
      congr 1
      refine ih m' (k + 1) hm hm' fun a ha => ?_
      by_cases hak : a ≤ k
      · rw [Memory.read_of_wfFrom font m (k + 1) a hm (by omega),
          Memory.read_of_wfFrom font m' (k + 1) a hm' (by omega)]
      · have := h a ha
        simpa [Memory.read, (show k ≠ a by omega)] using this

/-- Equal memories are equal data. -/
theorem Memory.ext (font : FontTable) (m₁ m₂ : Memory) (h₁ : Memory.wf font m₁ = true)
    (h₂ : Memory.wf font m₂ = true) (h : ∀ a < 0x1000, Memory.read font m₁ a = Memory.read font m₂ a) : m₁ = m₂ :=
  Memory.extFrom font m₁ m₂ 0 h₁ h₂ h

@[simp] theorem Memory.wf_nil (font : FontTable) : Memory.wf font [] = true := rfl

@[simp] theorem Memory.read_nil (font : FontTable) (a : Nat) :
    Memory.read font [] a = Memory.unlisted font a := rfl

end Sys2Proof.Machine
end

