-- ==== Sys2Proof/Laws/State.lean ====
section
/-! SUPPORT. One lemma per field and per observer for every named update of the state, each true by rfl: a proof
simplifies with these and unfolds no record update. -/

namespace Sys2Proof.Machine.State

variable (s : State)

/-! `writeV` -/
@[simp] theorem writeV_v (x : Reg) (b : Byte) : (s.writeV x b).v = s.v.set x b := rfl
@[simp] theorem writeV_i (x : Reg) (b : Byte) : (s.writeV x b).i = s.i := rfl
@[simp] theorem writeV_pc (x : Reg) (b : Byte) : (s.writeV x b).pc = s.pc := rfl
@[simp] theorem writeV_sp (x : Reg) (b : Byte) : (s.writeV x b).sp = s.sp := rfl
@[simp] theorem writeV_stack (x : Reg) (b : Byte) : (s.writeV x b).stack = s.stack := rfl
@[simp] theorem writeV_dt (x : Reg) (b : Byte) : (s.writeV x b).dt = s.dt := rfl
@[simp] theorem writeV_st (x : Reg) (b : Byte) : (s.writeV x b).st = s.st := rfl
@[simp] theorem writeV_mem (x : Reg) (b : Byte) : (s.writeV x b).mem = s.mem := rfl
@[simp] theorem writeV_disp (x : Reg) (b : Byte) : (s.writeV x b).disp = s.disp := rfl
@[simp] theorem writeV_keys (x : Reg) (b : Byte) : (s.writeV x b).keys = s.keys := rfl
@[simp] theorem writeV_fault (x : Reg) (b : Byte) : (s.writeV x b).fault = s.fault := rfl
@[simp] theorem writeV_rand (x : Reg) (b : Byte) : (s.writeV x b).rand = s.rand := rfl
@[simp] theorem writeV_params (x : Reg) (b : Byte) : (s.writeV x b).params = s.params := rfl
@[simp] theorem writeV_readByte (x : Reg) (b : Byte) (c : Nat) : (s.writeV x b).readByte c = s.readByte c := rfl
@[simp] theorem writeV_pixel (x : Reg) (b : Byte) (px : Fin 64) (py : Fin 32) : (s.writeV x b).pixel px py = s.pixel px py := rfl

/-! `writeByte` -/
@[simp] theorem writeByte_v (a : Nat) (b : Byte) : (s.writeByte a b).v = s.v := rfl
@[simp] theorem writeByte_i (a : Nat) (b : Byte) : (s.writeByte a b).i = s.i := rfl
@[simp] theorem writeByte_pc (a : Nat) (b : Byte) : (s.writeByte a b).pc = s.pc := rfl
@[simp] theorem writeByte_sp (a : Nat) (b : Byte) : (s.writeByte a b).sp = s.sp := rfl
@[simp] theorem writeByte_stack (a : Nat) (b : Byte) : (s.writeByte a b).stack = s.stack := rfl
@[simp] theorem writeByte_dt (a : Nat) (b : Byte) : (s.writeByte a b).dt = s.dt := rfl
@[simp] theorem writeByte_st (a : Nat) (b : Byte) : (s.writeByte a b).st = s.st := rfl
@[simp] theorem writeByte_mem (a : Nat) (b : Byte) : (s.writeByte a b).mem = Memory.write s.params.fontTable s.mem a b := rfl
@[simp] theorem writeByte_disp (a : Nat) (b : Byte) : (s.writeByte a b).disp = s.disp := rfl
@[simp] theorem writeByte_keys (a : Nat) (b : Byte) : (s.writeByte a b).keys = s.keys := rfl
@[simp] theorem writeByte_fault (a : Nat) (b : Byte) : (s.writeByte a b).fault = s.fault := rfl
@[simp] theorem writeByte_rand (a : Nat) (b : Byte) : (s.writeByte a b).rand = s.rand := rfl
@[simp] theorem writeByte_params (a : Nat) (b : Byte) : (s.writeByte a b).params = s.params := rfl
@[simp] theorem writeByte_readV (a : Nat) (b : Byte) (z : Reg) : (s.writeByte a b).readV z = s.readV z := rfl
@[simp] theorem writeByte_pixel (a : Nat) (b : Byte) (px : Fin 64) (py : Fin 32) : (s.writeByte a b).pixel px py = s.pixel px py := rfl

/-! `setI` -/
@[simp] theorem setI_v (a : Word) : (s.setI a).v = s.v := rfl
@[simp] theorem setI_i (a : Word) : (s.setI a).i = a := rfl
@[simp] theorem setI_pc (a : Word) : (s.setI a).pc = s.pc := rfl
@[simp] theorem setI_sp (a : Word) : (s.setI a).sp = s.sp := rfl
@[simp] theorem setI_stack (a : Word) : (s.setI a).stack = s.stack := rfl
@[simp] theorem setI_dt (a : Word) : (s.setI a).dt = s.dt := rfl
@[simp] theorem setI_st (a : Word) : (s.setI a).st = s.st := rfl
@[simp] theorem setI_mem (a : Word) : (s.setI a).mem = s.mem := rfl
@[simp] theorem setI_disp (a : Word) : (s.setI a).disp = s.disp := rfl
@[simp] theorem setI_keys (a : Word) : (s.setI a).keys = s.keys := rfl
@[simp] theorem setI_fault (a : Word) : (s.setI a).fault = s.fault := rfl
@[simp] theorem setI_rand (a : Word) : (s.setI a).rand = s.rand := rfl
@[simp] theorem setI_params (a : Word) : (s.setI a).params = s.params := rfl
@[simp] theorem setI_readV (a : Word) (z : Reg) : (s.setI a).readV z = s.readV z := rfl
@[simp] theorem setI_readByte (a : Word) (c : Nat) : (s.setI a).readByte c = s.readByte c := rfl
@[simp] theorem setI_pixel (a : Word) (px : Fin 64) (py : Fin 32) : (s.setI a).pixel px py = s.pixel px py := rfl

/-! `setPc` -/
@[simp] theorem setPc_v (a : Word) : (s.setPc a).v = s.v := rfl
@[simp] theorem setPc_i (a : Word) : (s.setPc a).i = s.i := rfl
@[simp] theorem setPc_pc (a : Word) : (s.setPc a).pc = a := rfl
@[simp] theorem setPc_sp (a : Word) : (s.setPc a).sp = s.sp := rfl
@[simp] theorem setPc_stack (a : Word) : (s.setPc a).stack = s.stack := rfl
@[simp] theorem setPc_dt (a : Word) : (s.setPc a).dt = s.dt := rfl
@[simp] theorem setPc_st (a : Word) : (s.setPc a).st = s.st := rfl
@[simp] theorem setPc_mem (a : Word) : (s.setPc a).mem = s.mem := rfl
@[simp] theorem setPc_disp (a : Word) : (s.setPc a).disp = s.disp := rfl
@[simp] theorem setPc_keys (a : Word) : (s.setPc a).keys = s.keys := rfl
@[simp] theorem setPc_fault (a : Word) : (s.setPc a).fault = s.fault := rfl
@[simp] theorem setPc_rand (a : Word) : (s.setPc a).rand = s.rand := rfl
@[simp] theorem setPc_params (a : Word) : (s.setPc a).params = s.params := rfl
@[simp] theorem setPc_readV (a : Word) (z : Reg) : (s.setPc a).readV z = s.readV z := rfl
@[simp] theorem setPc_readByte (a : Word) (c : Nat) : (s.setPc a).readByte c = s.readByte c := rfl
@[simp] theorem setPc_pixel (a : Word) (px : Fin 64) (py : Fin 32) : (s.setPc a).pixel px py = s.pixel px py := rfl

/-! `setDt` -/
@[simp] theorem setDt_v (b : Byte) : (s.setDt b).v = s.v := rfl
@[simp] theorem setDt_i (b : Byte) : (s.setDt b).i = s.i := rfl
@[simp] theorem setDt_pc (b : Byte) : (s.setDt b).pc = s.pc := rfl
@[simp] theorem setDt_sp (b : Byte) : (s.setDt b).sp = s.sp := rfl
@[simp] theorem setDt_stack (b : Byte) : (s.setDt b).stack = s.stack := rfl
@[simp] theorem setDt_dt (b : Byte) : (s.setDt b).dt = b := rfl
@[simp] theorem setDt_st (b : Byte) : (s.setDt b).st = s.st := rfl
@[simp] theorem setDt_mem (b : Byte) : (s.setDt b).mem = s.mem := rfl
@[simp] theorem setDt_disp (b : Byte) : (s.setDt b).disp = s.disp := rfl
@[simp] theorem setDt_keys (b : Byte) : (s.setDt b).keys = s.keys := rfl
@[simp] theorem setDt_fault (b : Byte) : (s.setDt b).fault = s.fault := rfl
@[simp] theorem setDt_rand (b : Byte) : (s.setDt b).rand = s.rand := rfl
@[simp] theorem setDt_params (b : Byte) : (s.setDt b).params = s.params := rfl
@[simp] theorem setDt_readV (b : Byte) (z : Reg) : (s.setDt b).readV z = s.readV z := rfl
@[simp] theorem setDt_readByte (b : Byte) (c : Nat) : (s.setDt b).readByte c = s.readByte c := rfl
@[simp] theorem setDt_pixel (b : Byte) (px : Fin 64) (py : Fin 32) : (s.setDt b).pixel px py = s.pixel px py := rfl

/-! `setSt` -/
@[simp] theorem setSt_v (b : Byte) : (s.setSt b).v = s.v := rfl
@[simp] theorem setSt_i (b : Byte) : (s.setSt b).i = s.i := rfl
@[simp] theorem setSt_pc (b : Byte) : (s.setSt b).pc = s.pc := rfl
@[simp] theorem setSt_sp (b : Byte) : (s.setSt b).sp = s.sp := rfl
@[simp] theorem setSt_stack (b : Byte) : (s.setSt b).stack = s.stack := rfl
@[simp] theorem setSt_dt (b : Byte) : (s.setSt b).dt = s.dt := rfl
@[simp] theorem setSt_st (b : Byte) : (s.setSt b).st = b := rfl
@[simp] theorem setSt_mem (b : Byte) : (s.setSt b).mem = s.mem := rfl
@[simp] theorem setSt_disp (b : Byte) : (s.setSt b).disp = s.disp := rfl
@[simp] theorem setSt_keys (b : Byte) : (s.setSt b).keys = s.keys := rfl
@[simp] theorem setSt_fault (b : Byte) : (s.setSt b).fault = s.fault := rfl
@[simp] theorem setSt_rand (b : Byte) : (s.setSt b).rand = s.rand := rfl
@[simp] theorem setSt_params (b : Byte) : (s.setSt b).params = s.params := rfl
@[simp] theorem setSt_readV (b : Byte) (z : Reg) : (s.setSt b).readV z = s.readV z := rfl
@[simp] theorem setSt_readByte (b : Byte) (c : Nat) : (s.setSt b).readByte c = s.readByte c := rfl
@[simp] theorem setSt_pixel (b : Byte) (px : Fin 64) (py : Fin 32) : (s.setSt b).pixel px py = s.pixel px py := rfl

/-! `advance` -/
@[simp] theorem advance_v : (s.advance).v = s.v := rfl
@[simp] theorem advance_i : (s.advance).i = s.i := rfl
@[simp] theorem advance_pc : (s.advance).pc = s.pc + 2 := rfl
@[simp] theorem advance_sp : (s.advance).sp = s.sp := rfl
@[simp] theorem advance_stack : (s.advance).stack = s.stack := rfl
@[simp] theorem advance_dt : (s.advance).dt = s.dt := rfl
@[simp] theorem advance_st : (s.advance).st = s.st := rfl
@[simp] theorem advance_mem : (s.advance).mem = s.mem := rfl
@[simp] theorem advance_disp : (s.advance).disp = s.disp := rfl
@[simp] theorem advance_keys : (s.advance).keys = s.keys := rfl
@[simp] theorem advance_fault : (s.advance).fault = s.fault := rfl
@[simp] theorem advance_rand : (s.advance).rand = s.rand := rfl
@[simp] theorem advance_params : (s.advance).params = s.params := rfl
@[simp] theorem advance_readV (z : Reg) : (s.advance).readV z = s.readV z := rfl
@[simp] theorem advance_readByte (c : Nat) : (s.advance).readByte c = s.readByte c := rfl
@[simp] theorem advance_pixel (px : Fin 64) (py : Fin 32) : (s.advance).pixel px py = s.pixel px py := rfl

/-! `rewind` -/
@[simp] theorem rewind_v : (s.rewind).v = s.v := rfl
@[simp] theorem rewind_i : (s.rewind).i = s.i := rfl
@[simp] theorem rewind_pc : (s.rewind).pc = s.pc - 2 := rfl
@[simp] theorem rewind_sp : (s.rewind).sp = s.sp := rfl
@[simp] theorem rewind_stack : (s.rewind).stack = s.stack := rfl
@[simp] theorem rewind_dt : (s.rewind).dt = s.dt := rfl
@[simp] theorem rewind_st : (s.rewind).st = s.st := rfl
@[simp] theorem rewind_mem : (s.rewind).mem = s.mem := rfl
@[simp] theorem rewind_disp : (s.rewind).disp = s.disp := rfl
@[simp] theorem rewind_keys : (s.rewind).keys = s.keys := rfl
@[simp] theorem rewind_fault : (s.rewind).fault = s.fault := rfl
@[simp] theorem rewind_rand : (s.rewind).rand = s.rand := rfl
@[simp] theorem rewind_params : (s.rewind).params = s.params := rfl
@[simp] theorem rewind_readV (z : Reg) : (s.rewind).readV z = s.readV z := rfl
@[simp] theorem rewind_readByte (c : Nat) : (s.rewind).readByte c = s.readByte c := rfl
@[simp] theorem rewind_pixel (px : Fin 64) (py : Fin 32) : (s.rewind).pixel px py = s.pixel px py := rfl

/-! `pushAt` -/
@[simp] theorem pushAt_v (j : Fin 16) (a : Word) : (s.pushAt j a).v = s.v := rfl
@[simp] theorem pushAt_i (j : Fin 16) (a : Word) : (s.pushAt j a).i = s.i := rfl
@[simp] theorem pushAt_pc (j : Fin 16) (a : Word) : (s.pushAt j a).pc = s.pc := rfl
@[simp] theorem pushAt_sp (j : Fin 16) (a : Word) : (s.pushAt j a).sp = s.sp + 1 := rfl
@[simp] theorem pushAt_stack (j : Fin 16) (a : Word) : (s.pushAt j a).stack = s.stack.set j a := rfl
@[simp] theorem pushAt_dt (j : Fin 16) (a : Word) : (s.pushAt j a).dt = s.dt := rfl
@[simp] theorem pushAt_st (j : Fin 16) (a : Word) : (s.pushAt j a).st = s.st := rfl
@[simp] theorem pushAt_mem (j : Fin 16) (a : Word) : (s.pushAt j a).mem = s.mem := rfl
@[simp] theorem pushAt_disp (j : Fin 16) (a : Word) : (s.pushAt j a).disp = s.disp := rfl
@[simp] theorem pushAt_keys (j : Fin 16) (a : Word) : (s.pushAt j a).keys = s.keys := rfl
@[simp] theorem pushAt_fault (j : Fin 16) (a : Word) : (s.pushAt j a).fault = s.fault := rfl
@[simp] theorem pushAt_rand (j : Fin 16) (a : Word) : (s.pushAt j a).rand = s.rand := rfl
@[simp] theorem pushAt_params (j : Fin 16) (a : Word) : (s.pushAt j a).params = s.params := rfl
@[simp] theorem pushAt_readV (j : Fin 16) (a : Word) (z : Reg) : (s.pushAt j a).readV z = s.readV z := rfl
@[simp] theorem pushAt_readByte (j : Fin 16) (a : Word) (c : Nat) : (s.pushAt j a).readByte c = s.readByte c := rfl
@[simp] theorem pushAt_pixel (j : Fin 16) (a : Word) (px : Fin 64) (py : Fin 32) : (s.pushAt j a).pixel px py = s.pixel px py := rfl

/-! `popped` -/
@[simp] theorem popped_v : (s.popped).v = s.v := rfl
@[simp] theorem popped_i : (s.popped).i = s.i := rfl
@[simp] theorem popped_pc : (s.popped).pc = s.pc := rfl
@[simp] theorem popped_sp : (s.popped).sp = s.sp - 1 := rfl
@[simp] theorem popped_stack : (s.popped).stack = s.stack := rfl
@[simp] theorem popped_dt : (s.popped).dt = s.dt := rfl
@[simp] theorem popped_st : (s.popped).st = s.st := rfl
@[simp] theorem popped_mem : (s.popped).mem = s.mem := rfl
@[simp] theorem popped_disp : (s.popped).disp = s.disp := rfl
@[simp] theorem popped_keys : (s.popped).keys = s.keys := rfl
@[simp] theorem popped_fault : (s.popped).fault = s.fault := rfl
@[simp] theorem popped_rand : (s.popped).rand = s.rand := rfl
@[simp] theorem popped_params : (s.popped).params = s.params := rfl
@[simp] theorem popped_readV (z : Reg) : (s.popped).readV z = s.readV z := rfl
@[simp] theorem popped_readByte (c : Nat) : (s.popped).readByte c = s.readByte c := rfl
@[simp] theorem popped_pixel (px : Fin 64) (py : Fin 32) : (s.popped).pixel px py = s.pixel px py := rfl

/-! `togglePixel` -/
@[simp] theorem togglePixel_v (x : Fin 64) (y : Fin 32) : (s.togglePixel x y).v = s.v := rfl
@[simp] theorem togglePixel_i (x : Fin 64) (y : Fin 32) : (s.togglePixel x y).i = s.i := rfl
@[simp] theorem togglePixel_pc (x : Fin 64) (y : Fin 32) : (s.togglePixel x y).pc = s.pc := rfl
@[simp] theorem togglePixel_sp (x : Fin 64) (y : Fin 32) : (s.togglePixel x y).sp = s.sp := rfl
@[simp] theorem togglePixel_stack (x : Fin 64) (y : Fin 32) : (s.togglePixel x y).stack = s.stack := rfl
@[simp] theorem togglePixel_dt (x : Fin 64) (y : Fin 32) : (s.togglePixel x y).dt = s.dt := rfl
@[simp] theorem togglePixel_st (x : Fin 64) (y : Fin 32) : (s.togglePixel x y).st = s.st := rfl
@[simp] theorem togglePixel_mem (x : Fin 64) (y : Fin 32) : (s.togglePixel x y).mem = s.mem := rfl
@[simp] theorem togglePixel_disp (x : Fin 64) (y : Fin 32) : (s.togglePixel x y).disp = s.disp.set y (s.disp[y].set x (!s.disp[y][x])) := rfl
@[simp] theorem togglePixel_keys (x : Fin 64) (y : Fin 32) : (s.togglePixel x y).keys = s.keys := rfl
@[simp] theorem togglePixel_fault (x : Fin 64) (y : Fin 32) : (s.togglePixel x y).fault = s.fault := rfl
@[simp] theorem togglePixel_rand (x : Fin 64) (y : Fin 32) : (s.togglePixel x y).rand = s.rand := rfl
@[simp] theorem togglePixel_params (x : Fin 64) (y : Fin 32) : (s.togglePixel x y).params = s.params := rfl
@[simp] theorem togglePixel_readV (x : Fin 64) (y : Fin 32) (z : Reg) : (s.togglePixel x y).readV z = s.readV z := rfl
@[simp] theorem togglePixel_readByte (x : Fin 64) (y : Fin 32) (c : Nat) : (s.togglePixel x y).readByte c = s.readByte c := rfl

/-! `clearDisplay` -/
@[simp] theorem clearDisplay_v : (s.clearDisplay).v = s.v := rfl
@[simp] theorem clearDisplay_i : (s.clearDisplay).i = s.i := rfl
@[simp] theorem clearDisplay_pc : (s.clearDisplay).pc = s.pc := rfl
@[simp] theorem clearDisplay_sp : (s.clearDisplay).sp = s.sp := rfl
@[simp] theorem clearDisplay_stack : (s.clearDisplay).stack = s.stack := rfl
@[simp] theorem clearDisplay_dt : (s.clearDisplay).dt = s.dt := rfl
@[simp] theorem clearDisplay_st : (s.clearDisplay).st = s.st := rfl
@[simp] theorem clearDisplay_mem : (s.clearDisplay).mem = s.mem := rfl
@[simp] theorem clearDisplay_disp : (s.clearDisplay).disp = Vector.replicate 32 (Vector.replicate 64 false) := rfl
@[simp] theorem clearDisplay_keys : (s.clearDisplay).keys = s.keys := rfl
@[simp] theorem clearDisplay_fault : (s.clearDisplay).fault = s.fault := rfl
@[simp] theorem clearDisplay_rand : (s.clearDisplay).rand = s.rand := rfl
@[simp] theorem clearDisplay_params : (s.clearDisplay).params = s.params := rfl
@[simp] theorem clearDisplay_readV (z : Reg) : (s.clearDisplay).readV z = s.readV z := rfl
@[simp] theorem clearDisplay_readByte (c : Nat) : (s.clearDisplay).readByte c = s.readByte c := rfl

/-! `consumeRand` -/
@[simp] theorem consumeRand_v : (s.consumeRand).v = s.v := rfl
@[simp] theorem consumeRand_i : (s.consumeRand).i = s.i := rfl
@[simp] theorem consumeRand_pc : (s.consumeRand).pc = s.pc := rfl
@[simp] theorem consumeRand_sp : (s.consumeRand).sp = s.sp := rfl
@[simp] theorem consumeRand_stack : (s.consumeRand).stack = s.stack := rfl
@[simp] theorem consumeRand_dt : (s.consumeRand).dt = s.dt := rfl
@[simp] theorem consumeRand_st : (s.consumeRand).st = s.st := rfl
@[simp] theorem consumeRand_mem : (s.consumeRand).mem = s.mem := rfl
@[simp] theorem consumeRand_disp : (s.consumeRand).disp = s.disp := rfl
@[simp] theorem consumeRand_keys : (s.consumeRand).keys = s.keys := rfl
@[simp] theorem consumeRand_fault : (s.consumeRand).fault = s.fault := rfl
@[simp] theorem consumeRand_rand : (s.consumeRand).rand = ⟨s.rand.injected.tail, s.rand.draws + 1⟩ := rfl
@[simp] theorem consumeRand_params : (s.consumeRand).params = s.params := rfl
@[simp] theorem consumeRand_readV (z : Reg) : (s.consumeRand).readV z = s.readV z := rfl
@[simp] theorem consumeRand_readByte (c : Nat) : (s.consumeRand).readByte c = s.readByte c := rfl
@[simp] theorem consumeRand_pixel (px : Fin 64) (py : Fin 32) : (s.consumeRand).pixel px py = s.pixel px py := rfl

/-! `takeFault` -/
@[simp] theorem takeFault_v (k : FaultKind) (o : Option Word) (a : Option Nat) : (s.takeFault k o a).v = s.v := rfl
@[simp] theorem takeFault_i (k : FaultKind) (o : Option Word) (a : Option Nat) : (s.takeFault k o a).i = s.i := rfl
@[simp] theorem takeFault_pc (k : FaultKind) (o : Option Word) (a : Option Nat) : (s.takeFault k o a).pc = s.pc := rfl
@[simp] theorem takeFault_sp (k : FaultKind) (o : Option Word) (a : Option Nat) : (s.takeFault k o a).sp = s.sp := rfl
@[simp] theorem takeFault_stack (k : FaultKind) (o : Option Word) (a : Option Nat) : (s.takeFault k o a).stack = s.stack := rfl
@[simp] theorem takeFault_dt (k : FaultKind) (o : Option Word) (a : Option Nat) : (s.takeFault k o a).dt = s.dt := rfl
@[simp] theorem takeFault_st (k : FaultKind) (o : Option Word) (a : Option Nat) : (s.takeFault k o a).st = s.st := rfl
@[simp] theorem takeFault_mem (k : FaultKind) (o : Option Word) (a : Option Nat) : (s.takeFault k o a).mem = s.mem := rfl
@[simp] theorem takeFault_disp (k : FaultKind) (o : Option Word) (a : Option Nat) : (s.takeFault k o a).disp = s.disp := rfl
@[simp] theorem takeFault_keys (k : FaultKind) (o : Option Word) (a : Option Nat) : (s.takeFault k o a).keys = s.keys := rfl
@[simp] theorem takeFault_fault (k : FaultKind) (o : Option Word) (a : Option Nat) : (s.takeFault k o a).fault = some ⟨k, s.pc, o, a⟩ := rfl
@[simp] theorem takeFault_rand (k : FaultKind) (o : Option Word) (a : Option Nat) : (s.takeFault k o a).rand = s.rand := rfl
@[simp] theorem takeFault_params (k : FaultKind) (o : Option Word) (a : Option Nat) : (s.takeFault k o a).params = s.params := rfl
@[simp] theorem takeFault_readV (k : FaultKind) (o : Option Word) (a : Option Nat) (z : Reg) : (s.takeFault k o a).readV z = s.readV z := rfl
@[simp] theorem takeFault_readByte (k : FaultKind) (o : Option Word) (a : Option Nat) (c : Nat) : (s.takeFault k o a).readByte c = s.readByte c := rfl
@[simp] theorem takeFault_pixel (k : FaultKind) (o : Option Word) (a : Option Nat) (px : Fin 64) (py : Fin 32) : (s.takeFault k o a).pixel px py = s.pixel px py := rfl

/-! `tick` -/
@[simp] theorem tick_v : (s.tick).v = s.v := rfl
@[simp] theorem tick_i : (s.tick).i = s.i := rfl
@[simp] theorem tick_pc : (s.tick).pc = s.pc := rfl
@[simp] theorem tick_sp : (s.tick).sp = s.sp := rfl
@[simp] theorem tick_stack : (s.tick).stack = s.stack := rfl
@[simp] theorem tick_dt : (s.tick).dt = tickByte s.dt := rfl
@[simp] theorem tick_st : (s.tick).st = tickByte s.st := rfl
@[simp] theorem tick_mem : (s.tick).mem = s.mem := rfl
@[simp] theorem tick_disp : (s.tick).disp = s.disp := rfl
@[simp] theorem tick_keys : (s.tick).keys = s.keys := rfl
@[simp] theorem tick_fault : (s.tick).fault = s.fault := rfl
@[simp] theorem tick_rand : (s.tick).rand = s.rand := rfl
@[simp] theorem tick_params : (s.tick).params = s.params := rfl
@[simp] theorem tick_readV (z : Reg) : (s.tick).readV z = s.readV z := rfl
@[simp] theorem tick_readByte (c : Nat) : (s.tick).readByte c = s.readByte c := rfl
@[simp] theorem tick_pixel (px : Fin 64) (py : Fin 32) : (s.tick).pixel px py = s.pixel px py := rfl

/-! `setKey` -/
@[simp] theorem setKey_v (k : Fin 16) (p : Bool) : (s.setKey k p).v = s.v := rfl
@[simp] theorem setKey_i (k : Fin 16) (p : Bool) : (s.setKey k p).i = s.i := rfl
@[simp] theorem setKey_pc (k : Fin 16) (p : Bool) : (s.setKey k p).pc = s.pc := rfl
@[simp] theorem setKey_sp (k : Fin 16) (p : Bool) : (s.setKey k p).sp = s.sp := rfl
@[simp] theorem setKey_stack (k : Fin 16) (p : Bool) : (s.setKey k p).stack = s.stack := rfl
@[simp] theorem setKey_dt (k : Fin 16) (p : Bool) : (s.setKey k p).dt = s.dt := rfl
@[simp] theorem setKey_st (k : Fin 16) (p : Bool) : (s.setKey k p).st = s.st := rfl
@[simp] theorem setKey_mem (k : Fin 16) (p : Bool) : (s.setKey k p).mem = s.mem := rfl
@[simp] theorem setKey_disp (k : Fin 16) (p : Bool) : (s.setKey k p).disp = s.disp := rfl
@[simp] theorem setKey_keys (k : Fin 16) (p : Bool) : (s.setKey k p).keys = s.keys.set k p := rfl
@[simp] theorem setKey_fault (k : Fin 16) (p : Bool) : (s.setKey k p).fault = s.fault := rfl
@[simp] theorem setKey_rand (k : Fin 16) (p : Bool) : (s.setKey k p).rand = s.rand := rfl
@[simp] theorem setKey_params (k : Fin 16) (p : Bool) : (s.setKey k p).params = s.params := rfl
@[simp] theorem setKey_readV (k : Fin 16) (p : Bool) (z : Reg) : (s.setKey k p).readV z = s.readV z := rfl
@[simp] theorem setKey_readByte (k : Fin 16) (p : Bool) (c : Nat) : (s.setKey k p).readByte c = s.readByte c := rfl
@[simp] theorem setKey_pixel (k : Fin 16) (p : Bool) (px : Fin 64) (py : Fin 32) : (s.setKey k p).pixel px py = s.pixel px py := rfl

/-! `injectRand` -/
@[simp] theorem injectRand_v (bs : List Byte) : (s.injectRand bs).v = s.v := rfl
@[simp] theorem injectRand_i (bs : List Byte) : (s.injectRand bs).i = s.i := rfl
@[simp] theorem injectRand_pc (bs : List Byte) : (s.injectRand bs).pc = s.pc := rfl
@[simp] theorem injectRand_sp (bs : List Byte) : (s.injectRand bs).sp = s.sp := rfl
@[simp] theorem injectRand_stack (bs : List Byte) : (s.injectRand bs).stack = s.stack := rfl
@[simp] theorem injectRand_dt (bs : List Byte) : (s.injectRand bs).dt = s.dt := rfl
@[simp] theorem injectRand_st (bs : List Byte) : (s.injectRand bs).st = s.st := rfl
@[simp] theorem injectRand_mem (bs : List Byte) : (s.injectRand bs).mem = s.mem := rfl
@[simp] theorem injectRand_disp (bs : List Byte) : (s.injectRand bs).disp = s.disp := rfl
@[simp] theorem injectRand_keys (bs : List Byte) : (s.injectRand bs).keys = s.keys := rfl
@[simp] theorem injectRand_fault (bs : List Byte) : (s.injectRand bs).fault = s.fault := rfl
@[simp] theorem injectRand_rand (bs : List Byte) : (s.injectRand bs).rand = ⟨s.rand.injected ++ bs, s.rand.draws⟩ := rfl
@[simp] theorem injectRand_params (bs : List Byte) : (s.injectRand bs).params = s.params := rfl
@[simp] theorem injectRand_readV (bs : List Byte) (z : Reg) : (s.injectRand bs).readV z = s.readV z := rfl
@[simp] theorem injectRand_readByte (bs : List Byte) (c : Nat) : (s.injectRand bs).readByte c = s.readByte c := rfl
@[simp] theorem injectRand_pixel (bs : List Byte) (px : Fin 64) (py : Fin 32) : (s.injectRand bs).pixel px py = s.pixel px py := rfl

end Sys2Proof.Machine.State
end

