-- ==== Sys2Proof/Laws/Ops.lean ====
section
/-! SUPPORT. What each shared operation can do, said once: register and pixel reads after writes, the address check
(spec/20_memory.md R62), and stores of several bytes or registers. -/

namespace Sys2Proof.Machine

/-! ## Registers and pixels -/

@[simp] theorem State.writeV_readV (s : State) (x y : Reg) (b : Byte) :
    (s.writeV x b).readV y = if y = x then b else s.readV y := by
  simp only [State.readV, State.writeV, Fin.getElem_fin, Vector.getElem_set, Fin.val_inj,
    eq_comm (a := x)]

@[simp] theorem State.togglePixel_pixel (s : State) (x px : Fin 64) (y py : Fin 32) :
    (s.togglePixel x y).pixel px py = if px = x ∧ py = y then !s.pixel px py else s.pixel px py := by
  by_cases hy : py = y
  · subst hy
    by_cases hx : px = x
    · subst hx; simp [State.pixel, State.togglePixel]
    · have : x.val ≠ px.val := fun h => hx (Fin.ext h.symm)
      simp [State.pixel, State.togglePixel, hx, this]
  · have : y.val ≠ py.val := fun h => hy (Fin.ext h.symm)
    simp [State.pixel, State.togglePixel, hy, this]

@[simp] theorem State.clearDisplay_pixel (s : State) (x : Fin 64) (y : Fin 32) :
    s.clearDisplay.pixel x y = false := by
  simp [State.pixel, State.clearDisplay]

/-- Displays with the same pixels are the same. -/
theorem State.disp_ext (s t : State) (h : ∀ x y, t.pixel x y = s.pixel x y) : t.disp = s.disp := by
  apply Vector.ext
  intro y hy
  apply Vector.ext
  intro x hx
  exact h ⟨x, hx⟩ ⟨y, hy⟩

/-! ## The address check (R62) -/

theorem check_of_lt (o : MemOob) (a : Nat) (h : a < 0x1000) : check o a = .ok a := by
  simp [check, Config.memSize, h]

theorem check_wrap (a : Nat) : check .wrap a = .ok (a % 0x1000) := by
  unfold check Config.memSize
  split
  · rename_i h; rw [Nat.mod_eq_of_lt h]
  · rfl

theorem check_fault (a : Nat) (h : 0x1000 ≤ a) : check .fault a = .error a := by
  simp [check, Config.memSize, Nat.not_lt.mpr h]

/-- Everything `check` can answer. -/
theorem check_cases (o : MemOob) (a : Nat) :
    (check o a = .ok (a % 0x1000) ∧ (o = .wrap ∨ a < 0x1000)) ∨
    (check o a = .error a ∧ o = .fault ∧ 0x1000 ≤ a) := by
  cases o with
  | wrap => exact .inl ⟨check_wrap a, .inl rfl⟩
  | fault =>
    by_cases h : a < 0x1000
    · exact .inl ⟨by rw [check_of_lt _ a h, Nat.mod_eq_of_lt h], .inr h⟩
    · exact .inr ⟨check_fault a (by omega), rfl, by omega⟩

/-- The checked addresses of I .. I+n-1 when they are in range or wrap. -/
theorem checkAll_range'_ok (o : MemOob) (a n : Nat) (h : o = .wrap ∨ a + n ≤ 0x1000 ∨ n = 0) :
    checkAll o (List.range' a n) = .ok ((List.range' a n).map (· % 0x1000)) := by
  induction n generalizing a with
  | zero => rfl
  | succ n ih =>
    have hc : check o a = .ok (a % 0x1000) := by
      obtain h | h := check_cases o a
      · exact h.1
      · obtain ⟨-, rfl, h'⟩ := h
        simp at h
        omega
    simp only [List.range'_succ, checkAll, hc, List.map_cons]
    rw [ih (a + 1) (by rcases h with h | h | h <;> [exact .inl h; exact .inr (.inl (by omega)); omega])]

/-- Under FAULT, a range that leaves memory answers its lowest address outside. -/
theorem checkAll_range'_error (a n : Nat) (hn : n ≠ 0) (h : 0x1000 < a + n) :
    checkAll .fault (List.range' a n) = .error (max 0x1000 a) := by
  induction n generalizing a with
  | zero => exact absurd rfl hn
  | succ n ih =>
    simp only [List.range'_succ, checkAll]
    by_cases ha : a < 0x1000
    · rw [check_of_lt _ a ha]
      simp only
      rw [ih (a + 1) (by omega) (by omega)]
      have : max 0x1000 (a + 1) = max 0x1000 a := by omega
      simp [this]
    · rw [check_fault a (by omega)]
      simp only [Except.error.injEq]
      omega

theorem State.checkedAddrs_ok (s : State) (n : Nat) (h : s.dataInRange n) :
    s.checkedAddrs n = .ok ((List.range' s.i.toNat n).map (· % 0x1000)) :=
  checkAll_range'_ok _ _ _ h

theorem State.checkedAddrs_error (s : State) (n : Nat) (ho : s.params.memOob = .fault) (hn : n ≠ 0)
    (h : 0x1000 < s.i.toNat + n) : s.checkedAddrs n = .error (max 0x1000 s.i.toNat) := by
  unfold State.checkedAddrs State.dataAddrs
  rw [ho]
  exact checkAll_range'_error _ _ hn h

/-- Everything `checkedAddrs` can answer. -/
theorem State.checkedAddrs_cases (s : State) (n : Nat) :
    (s.dataInRange n ∧ s.checkedAddrs n = .ok ((List.range' s.i.toNat n).map (· % 0x1000))) ∨
    (¬ s.dataInRange n ∧ s.checkedAddrs n = .error (max 0x1000 s.i.toNat)) := by
  by_cases h : s.dataInRange n
  · exact .inl ⟨h, s.checkedAddrs_ok n h⟩
  · refine .inr ⟨h, ?_⟩
    unfold State.dataInRange at h
    push Not at h
    have ho : s.params.memOob = .fault := by
      cases ho : s.params.memOob
      · rfl
      · exact absurd ho h.1
    exact s.checkedAddrs_error n ho h.2.2 (by omega)

/-! ## Storing several bytes and several registers -/

theorem State.writeBytes_nil (s : State) : s.writeBytes [] = s := rfl

theorem State.writeBytes_cons (s : State) (c : Nat × Byte) (cs : List (Nat × Byte)) :
    s.writeBytes (c :: cs) = (s.writeByte c.1 c.2).writeBytes cs := rfl

/-- Stores touch memory alone. -/
theorem State.writeBytes_eq (s : State) (cs : List (Nat × Byte)) :
    s.writeBytes cs = { s with mem := (s.writeBytes cs).mem } := by
  induction cs generalizing s with
  | nil => rfl
  | cons c cs ih => rw [State.writeBytes_cons, ih]; rfl

theorem State.writeByte_readByte (s : State) (a c : Nat) (b : Byte)
    (h : Memory.wf s.params.fontTable s.mem = true) :
    (s.writeByte a b).readByte c = if c = a then b else s.readByte c :=
  Memory.read_write _ _ _ _ _ h

theorem State.writeBytes_wf (s : State) (cs : List (Nat × Byte))
    (h : Memory.wf s.params.fontTable s.mem = true) (hc : ∀ c ∈ cs, c.1 < 0x1000) :
    Memory.wf s.params.fontTable (s.writeBytes cs).mem = true := by
  induction cs generalizing s with
  | nil => exact h
  | cons c cs ih =>
    rw [State.writeBytes_cons]
    exact ih (s.writeByte c.1 c.2) (Memory.wf_write _ _ _ _ h (hc c (by simp)))
      (fun d hd => hc d (by simp [hd]))

/-- A byte no store names reads as before. -/
theorem State.writeBytes_readByte_of_notMem (s : State) (cs : List (Nat × Byte)) (a : Nat)
    (h : Memory.wf s.params.fontTable s.mem = true) (hc : ∀ c ∈ cs, c.1 < 0x1000)
    (ha : ∀ c ∈ cs, c.1 ≠ a) : (s.writeBytes cs).readByte a = s.readByte a := by
  induction cs generalizing s with
  | nil => rfl
  | cons c cs ih =>
    rw [State.writeBytes_cons, ih (s.writeByte c.1 c.2) (Memory.wf_write _ _ _ _ h (hc c (by simp)))
      (fun d hd => hc d (by simp [hd])) (fun d hd => ha d (by simp [hd])),
      State.writeByte_readByte _ _ _ _ h, if_neg (Ne.symm (ha c (by simp)))]

/-- With distinct addresses, each address named holds its byte. -/
theorem State.writeBytes_readByte_of_mem (s : State) (cs : List (Nat × Byte)) (c : Nat × Byte)
    (h : Memory.wf s.params.fontTable s.mem = true) (hc : ∀ d ∈ cs, d.1 < 0x1000)
    (hn : (cs.map Prod.fst).Nodup) (hm : c ∈ cs) : (s.writeBytes cs).readByte c.1 = c.2 := by
  induction cs generalizing s with
  | nil => simp at hm
  | cons d cs ih =>
    have hwf := Memory.wf_write s.params.fontTable s.mem d.1 d.2 h (hc d (by simp))
    simp only [List.map_cons, List.nodup_cons, List.mem_map, not_exists, not_and] at hn
    rw [State.writeBytes_cons]
    rcases List.mem_cons.mp hm with rfl | hm
    · rw [State.writeBytes_readByte_of_notMem _ cs c.1 hwf (fun d hd => hc d (by simp [hd]))
        (fun d hd he => hn.1 d hd he), State.writeByte_readByte _ _ _ _ h, if_pos rfl]
    · exact ih (s.writeByte d.1 d.2) hwf (fun d hd => hc d (by simp [hd])) hn.2 hm

theorem State.writeVs_cons (s : State) (c : Reg × Byte) (cs : List (Reg × Byte)) :
    s.writeVs (c :: cs) = (s.writeV c.1 c.2).writeVs cs := rfl

/-- Register loads touch the register file alone. -/
theorem State.writeVs_eq (s : State) (cs : List (Reg × Byte)) :
    s.writeVs cs = { s with v := (s.writeVs cs).v } := by
  induction cs generalizing s with
  | nil => rfl
  | cons c cs ih => rw [State.writeVs_cons, ih]; rfl

theorem State.writeVs_readV_of_notMem (s : State) (cs : List (Reg × Byte)) (y : Reg)
    (hy : ∀ c ∈ cs, c.1 ≠ y) : (s.writeVs cs).readV y = s.readV y := by
  induction cs generalizing s with
  | nil => rfl
  | cons c cs ih =>
    rw [State.writeVs_cons, ih _ (fun d hd => hy d (by simp [hd])), State.writeV_readV,
      if_neg (Ne.symm (hy c (by simp)))]

theorem State.writeVs_readV_of_mem (s : State) (cs : List (Reg × Byte)) (c : Reg × Byte)
    (hn : (cs.map Prod.fst).Nodup) (hm : c ∈ cs) : (s.writeVs cs).readV c.1 = c.2 := by
  induction cs generalizing s with
  | nil => simp at hm
  | cons d cs ih =>
    simp only [List.map_cons, List.nodup_cons, List.mem_map, not_exists, not_and] at hn
    rw [State.writeVs_cons]
    rcases List.mem_cons.mp hm with rfl | hm
    · rw [State.writeVs_readV_of_notMem _ cs c.1 (fun d hd he => hn.1 d hd he), State.writeV_readV,
        if_pos rfl]
    · exact ih _ hn.2 hm

/-! ## What several stores leave unchanged -/

@[simp] theorem State.writeBytes_v (s : State) (cs : List (Nat × Byte)) : (s.writeBytes cs).v = s.v := by
  rw [State.writeBytes_eq]

@[simp] theorem State.writeBytes_i (s : State) (cs : List (Nat × Byte)) : (s.writeBytes cs).i = s.i := by
  rw [State.writeBytes_eq]

@[simp] theorem State.writeBytes_pc (s : State) (cs : List (Nat × Byte)) : (s.writeBytes cs).pc = s.pc := by
  rw [State.writeBytes_eq]

@[simp] theorem State.writeBytes_sp (s : State) (cs : List (Nat × Byte)) : (s.writeBytes cs).sp = s.sp := by
  rw [State.writeBytes_eq]

@[simp] theorem State.writeBytes_stack (s : State) (cs : List (Nat × Byte)) : (s.writeBytes cs).stack = s.stack := by
  rw [State.writeBytes_eq]

@[simp] theorem State.writeBytes_dt (s : State) (cs : List (Nat × Byte)) : (s.writeBytes cs).dt = s.dt := by
  rw [State.writeBytes_eq]

@[simp] theorem State.writeBytes_st (s : State) (cs : List (Nat × Byte)) : (s.writeBytes cs).st = s.st := by
  rw [State.writeBytes_eq]

@[simp] theorem State.writeBytes_disp (s : State) (cs : List (Nat × Byte)) : (s.writeBytes cs).disp = s.disp := by
  rw [State.writeBytes_eq]

@[simp] theorem State.writeBytes_keys (s : State) (cs : List (Nat × Byte)) : (s.writeBytes cs).keys = s.keys := by
  rw [State.writeBytes_eq]

@[simp] theorem State.writeBytes_fault (s : State) (cs : List (Nat × Byte)) : (s.writeBytes cs).fault = s.fault := by
  rw [State.writeBytes_eq]

@[simp] theorem State.writeBytes_rand (s : State) (cs : List (Nat × Byte)) : (s.writeBytes cs).rand = s.rand := by
  rw [State.writeBytes_eq]

@[simp] theorem State.writeBytes_params (s : State) (cs : List (Nat × Byte)) : (s.writeBytes cs).params = s.params := by
  rw [State.writeBytes_eq]

@[simp] theorem State.writeBytes_readV (s : State) (cs : List (Nat × Byte)) (z : Reg) :
    (s.writeBytes cs).readV z = s.readV z := by
  rw [State.writeBytes_eq]; rfl

@[simp] theorem State.writeBytes_pixel (s : State) (cs : List (Nat × Byte)) (px : Fin 64) (py : Fin 32) :
    (s.writeBytes cs).pixel px py = s.pixel px py := by
  rw [State.writeBytes_eq]; rfl

/-! ## What several register loads leave unchanged -/

@[simp] theorem State.writeVs_i (s : State) (cs : List (Reg × Byte)) : (s.writeVs cs).i = s.i := by
  rw [State.writeVs_eq]

@[simp] theorem State.writeVs_pc (s : State) (cs : List (Reg × Byte)) : (s.writeVs cs).pc = s.pc := by
  rw [State.writeVs_eq]

@[simp] theorem State.writeVs_sp (s : State) (cs : List (Reg × Byte)) : (s.writeVs cs).sp = s.sp := by
  rw [State.writeVs_eq]

@[simp] theorem State.writeVs_stack (s : State) (cs : List (Reg × Byte)) : (s.writeVs cs).stack = s.stack := by
  rw [State.writeVs_eq]

@[simp] theorem State.writeVs_dt (s : State) (cs : List (Reg × Byte)) : (s.writeVs cs).dt = s.dt := by
  rw [State.writeVs_eq]

@[simp] theorem State.writeVs_st (s : State) (cs : List (Reg × Byte)) : (s.writeVs cs).st = s.st := by
  rw [State.writeVs_eq]

@[simp] theorem State.writeVs_mem (s : State) (cs : List (Reg × Byte)) : (s.writeVs cs).mem = s.mem := by
  rw [State.writeVs_eq]

@[simp] theorem State.writeVs_disp (s : State) (cs : List (Reg × Byte)) : (s.writeVs cs).disp = s.disp := by
  rw [State.writeVs_eq]

@[simp] theorem State.writeVs_keys (s : State) (cs : List (Reg × Byte)) : (s.writeVs cs).keys = s.keys := by
  rw [State.writeVs_eq]

@[simp] theorem State.writeVs_fault (s : State) (cs : List (Reg × Byte)) : (s.writeVs cs).fault = s.fault := by
  rw [State.writeVs_eq]

@[simp] theorem State.writeVs_rand (s : State) (cs : List (Reg × Byte)) : (s.writeVs cs).rand = s.rand := by
  rw [State.writeVs_eq]

@[simp] theorem State.writeVs_params (s : State) (cs : List (Reg × Byte)) : (s.writeVs cs).params = s.params := by
  rw [State.writeVs_eq]

@[simp] theorem State.writeVs_readByte (s : State) (cs : List (Reg × Byte)) (a : Nat) :
    (s.writeVs cs).readByte a = s.readByte a := by
  rw [State.writeVs_eq]; rfl

@[simp] theorem State.writeVs_pixel (s : State) (cs : List (Reg × Byte)) (px : Fin 64) (py : Fin 32) :
    (s.writeVs cs).pixel px py = s.pixel px py := by
  rw [State.writeVs_eq]; rfl

end Sys2Proof.Machine
end

