-- ==== Sys2Proof/Laws/Operands.lean ====
section
/-! SUPPORT. One lemma per operand form and flag computation, in exact arithmetic (spec/30_encoding.md R82;
spec/42_arithmetic_logic_shift.md R140 to R152; spec/45_keypad.md R192, R193; spec/46_timer_index_memory.md R205). -/

namespace Sys2Proof.Machine

@[simp] theorem zextAddr_toNat (a : Addr12) : (zextAddr a).toNat = a.toNat := by
  simp only [zextAddr, BitVec.toNat_setWidth]; omega

@[simp] theorem zextByte_toNat (b : Byte) : (zextByte b).toNat = b.toNat := by
  simp only [zextByte, BitVec.toNat_setWidth]; omega

/-! ## Skips -/

@[simp] theorem State.skipIf_pc (s : State) (c : Bool) :
    (s.skipIf c).pc = if c = true then s.pc + 2 else s.pc := by cases c <;> rfl

theorem State.skipIf_eq (s : State) (c : Bool) : s.skipIf c = s.setPc (s.skipIf c).pc := by
  cases c <;> rfl

@[simp] theorem State.skipIf_v (s : State) (c : Bool) : (s.skipIf c).v = s.v := by
  cases c <;> rfl

@[simp] theorem State.skipIf_i (s : State) (c : Bool) : (s.skipIf c).i = s.i := by
  cases c <;> rfl

@[simp] theorem State.skipIf_sp (s : State) (c : Bool) : (s.skipIf c).sp = s.sp := by
  cases c <;> rfl

@[simp] theorem State.skipIf_stack (s : State) (c : Bool) : (s.skipIf c).stack = s.stack := by
  cases c <;> rfl

@[simp] theorem State.skipIf_dt (s : State) (c : Bool) : (s.skipIf c).dt = s.dt := by
  cases c <;> rfl

@[simp] theorem State.skipIf_st (s : State) (c : Bool) : (s.skipIf c).st = s.st := by
  cases c <;> rfl

@[simp] theorem State.skipIf_mem (s : State) (c : Bool) : (s.skipIf c).mem = s.mem := by
  cases c <;> rfl

@[simp] theorem State.skipIf_disp (s : State) (c : Bool) : (s.skipIf c).disp = s.disp := by
  cases c <;> rfl

@[simp] theorem State.skipIf_keys (s : State) (c : Bool) : (s.skipIf c).keys = s.keys := by
  cases c <;> rfl

@[simp] theorem State.skipIf_fault (s : State) (c : Bool) : (s.skipIf c).fault = s.fault := by
  cases c <;> rfl

@[simp] theorem State.skipIf_rand (s : State) (c : Bool) : (s.skipIf c).rand = s.rand := by
  cases c <;> rfl

@[simp] theorem State.skipIf_params (s : State) (c : Bool) : (s.skipIf c).params = s.params := by
  cases c <;> rfl

@[simp] theorem State.skipIf_readV (s : State) (c : Bool) (z : Reg) :
    (s.skipIf c).readV z = s.readV z := by
  cases c <;> rfl

@[simp] theorem State.skipIf_readByte (s : State) (c : Bool) (a : Nat) :
    (s.skipIf c).readByte a = s.readByte a := by
  cases c <;> rfl

@[simp] theorem State.skipIf_pixel (s : State) (c : Bool) (px : Fin 64) (py : Fin 32) :
    (s.skipIf c).pixel px py = s.pixel px py := by
  cases c <;> rfl

/-! ## Flags and results -/

@[simp] theorem flagByte_toNat (f : Bool) : (flagByte f).toNat = if f = true then 1 else 0 := by
  cases f <;> rfl

@[simp] theorem addResult_toNat (a b : Byte) : (addResult a b).toNat = (a.toNat + b.toNat) % 256 := by
  simp [addResult]

@[simp] theorem subResult_toNat (a b : Byte) : (subResult a b).toNat = (256 + a.toNat - b.toNat) % 256 := by
  have := a.isLt
  have := b.isLt
  unfold subResult
  rw [BitVec.toNat_sub]
  omega

@[simp] theorem shiftFlag_toNat (a : Byte) : (flagByte (shiftFlag a)).toNat = a.toNat % 2 := by
  simp only [flagByte_toNat, shiftFlag, BitVec.getLsbD, Nat.testBit_zero]
  split <;> simp_all

@[simp] theorem shrResult_toNat (a : Byte) : (shrResult a).toNat = a.toNat / 2 := by
  simp [shrResult, Nat.shiftRight_eq_div_pow]

@[simp] theorem shlResult_toNat (a : Byte) : (shlResult a).toNat = 2 * a.toNat % 256 := by
  simp [shlResult, Nat.shiftLeft_eq, mul_comm]

/-- WriteFlagResult writes VF and Vx alone (R140). -/
theorem State.writeFlagResult_eq (s : State) (x : Reg) (f : Bool) (r : Byte) (g : State → Byte) :
    s.writeFlagResult x f r g = { s with v := (s.writeFlagResult x f r g).v } := by
  unfold State.writeFlagResult
  split <;> rfl

@[simp] theorem State.writeFlagResult_i (s : State) (x : Reg) (f : Bool) (r : Byte) (g : State → Byte) : (s.writeFlagResult x f r g).i = s.i := by
  rw [State.writeFlagResult_eq]

@[simp] theorem State.writeFlagResult_pc (s : State) (x : Reg) (f : Bool) (r : Byte) (g : State → Byte) : (s.writeFlagResult x f r g).pc = s.pc := by
  rw [State.writeFlagResult_eq]

@[simp] theorem State.writeFlagResult_sp (s : State) (x : Reg) (f : Bool) (r : Byte) (g : State → Byte) : (s.writeFlagResult x f r g).sp = s.sp := by
  rw [State.writeFlagResult_eq]

@[simp] theorem State.writeFlagResult_stack (s : State) (x : Reg) (f : Bool) (r : Byte) (g : State → Byte) : (s.writeFlagResult x f r g).stack = s.stack := by
  rw [State.writeFlagResult_eq]

@[simp] theorem State.writeFlagResult_dt (s : State) (x : Reg) (f : Bool) (r : Byte) (g : State → Byte) : (s.writeFlagResult x f r g).dt = s.dt := by
  rw [State.writeFlagResult_eq]

@[simp] theorem State.writeFlagResult_st (s : State) (x : Reg) (f : Bool) (r : Byte) (g : State → Byte) : (s.writeFlagResult x f r g).st = s.st := by
  rw [State.writeFlagResult_eq]

@[simp] theorem State.writeFlagResult_mem (s : State) (x : Reg) (f : Bool) (r : Byte) (g : State → Byte) : (s.writeFlagResult x f r g).mem = s.mem := by
  rw [State.writeFlagResult_eq]

@[simp] theorem State.writeFlagResult_disp (s : State) (x : Reg) (f : Bool) (r : Byte) (g : State → Byte) : (s.writeFlagResult x f r g).disp = s.disp := by
  rw [State.writeFlagResult_eq]

@[simp] theorem State.writeFlagResult_keys (s : State) (x : Reg) (f : Bool) (r : Byte) (g : State → Byte) : (s.writeFlagResult x f r g).keys = s.keys := by
  rw [State.writeFlagResult_eq]

@[simp] theorem State.writeFlagResult_fault (s : State) (x : Reg) (f : Bool) (r : Byte) (g : State → Byte) : (s.writeFlagResult x f r g).fault = s.fault := by
  rw [State.writeFlagResult_eq]

@[simp] theorem State.writeFlagResult_rand (s : State) (x : Reg) (f : Bool) (r : Byte) (g : State → Byte) : (s.writeFlagResult x f r g).rand = s.rand := by
  rw [State.writeFlagResult_eq]

@[simp] theorem State.writeFlagResult_params (s : State) (x : Reg) (f : Bool) (r : Byte) (g : State → Byte) : (s.writeFlagResult x f r g).params = s.params := by
  rw [State.writeFlagResult_eq]

@[simp] theorem State.writeFlagResult_readByte (s : State) (x : Reg) (f : Bool) (r : Byte) (g : State → Byte) (a : Nat) :
    (s.writeFlagResult x f r g).readByte a = s.readByte a := by
  rw [State.writeFlagResult_eq]; rfl

@[simp] theorem State.writeFlagResult_pixel (s : State) (x : Reg) (f : Bool) (r : Byte) (g : State → Byte) (px : Fin 64) (py : Fin 32) :
    (s.writeFlagResult x f r g).pixel px py = s.pixel px py := by
  rw [State.writeFlagResult_eq]; rfl

theorem State.writeFlagResult_readV_other (s : State) (x y : Reg) (f : Bool) (r : Byte) (g : State → Byte)
    (hx : y ≠ x) (hF : y ≠ regF) : (s.writeFlagResult x f r g).readV y = s.readV y := by
  unfold State.writeFlagResult
  split <;> simp [hx, hF]

/-! ## Keypad -/

theorem keyIndex_ok (o : KeyOob) (b : Byte) (k : Fin 16)
    (h : b.toNat = k.val ∨ (o = .mask ∧ b.toNat % 16 = k.val)) : keyIndex o b = .ok k := by
  unfold keyIndex
  split
  · congr 1
    apply Fin.ext
    simp only
    omega
  · obtain h | ⟨rfl, h⟩ := h
    · omega
    · have hm : b.toNat &&& 15 = b.toNat % 16 := Nat.and_two_pow_sub_one_eq_mod b.toNat 4
      simp only [Except.ok.injEq]
      apply Fin.ext
      have hn : (b &&& 0xF#8).toNat = b.toNat &&& 15 := rfl
      simp only [Fin.ofNat, hn]
      omega

theorem keyIndex_fault (b : Byte) (h : 0xF < b.toNat) : keyIndex .fault b = .error b.toNat := by
  unfold keyIndex
  rw [dif_neg (by omega)]

/-- Everything `keyIndex` can answer. -/
theorem keyIndex_cases (o : KeyOob) (b : Byte) :
    (∃ k, keyIndex o b = .ok k) ∨ (keyIndex o b = .error b.toNat ∧ o = .fault ∧ 0xF < b.toNat) := by
  by_cases h : b.toNat < 16
  · exact .inl ⟨_, by unfold keyIndex; rw [dif_pos h]⟩
  · cases o with
    | fault => exact .inr ⟨keyIndex_fault b (by omega), rfl, by omega⟩
    | mask => exact .inl ⟨_, by unfold keyIndex; rw [dif_neg h]⟩

theorem lowestKey_none (keys : Keypad) (h : ∀ j : Fin 16, keys[j] = false) : lowestKey keys = none := by
  unfold lowestKey
  rw [List.find?_eq_none]
  intro j _
  simpa using h j

theorem lowestKey_some (keys : Keypad) (k : Fin 16) (h : keys[k] = true)
    (h' : ∀ j : Fin 16, j < k → keys[j] = false) : lowestKey keys = some k := by
  unfold lowestKey
  rw [List.find?_eq_some_iff_getElem]
  refine ⟨h, k.val, by simp, by simp, fun j hj => ?_⟩
  have := h' ⟨j, by omega⟩ hj
  simpa using this

/-! ## The registers of a block transfer -/

theorem mem_regsUpTo (x y : Reg) : y ∈ regsUpTo x ↔ y ≤ x := by
  revert x y; decide

theorem regsUpTo_nodup (x : Reg) : (regsUpTo x).Nodup := by
  revert x; decide

@[simp] theorem regsUpTo_length (x : Reg) : (regsUpTo x).length = x.val + 1 := by
  revert x; decide

theorem regsUpTo_getElem (x : Reg) (j : Nat) (h : j < (regsUpTo x).length) :
    ((regsUpTo x)[j]).val = j := by
  simp [regsUpTo]

/-! ## The cells a store at I .. I+n-1 writes -/

/-- The checked addresses from I paired with the bytes to store there. -/
abbrev State.cellsAtI (s : State) (bs : List Byte) : List (Nat × Byte) :=
  ((List.range' s.i.toNat bs.length).map (· % 0x1000)).zip bs

theorem State.cellsAtI_nodup (s : State) (bs : List Byte) (hn : bs.length ≤ 16) :
    ((s.cellsAtI bs).map Prod.fst).Nodup := by
  rw [List.map_fst_zip (by simp)]
  refine (List.nodup_map_iff_inj_on List.nodup_range').mpr fun a ha b hb h => ?_
  simp only [List.mem_range'_1] at ha hb
  omega

theorem State.cellsAtI_lt (s : State) (bs : List Byte) : ∀ c ∈ s.cellsAtI bs, c.1 < 0x1000 := by
  intro c hc
  obtain ⟨a, _, ha⟩ := List.mem_map.mp (List.of_mem_zip hc).1
  omega

theorem State.mem_cellsAtI (s : State) (bs : List Byte) (k : Nat) (hk : k < bs.length) :
    ((s.i.toNat + k) % 0x1000, bs[k]) ∈ s.cellsAtI bs := by
  rw [List.mem_iff_getElem]
  exact ⟨k, by simpa using hk, by simp⟩

theorem State.notMem_cellsAtI (s : State) (bs : List Byte) (a : Nat)
    (h : ¬ ∃ k < bs.length, a = (s.i.toNat + k) % 0x1000) : ∀ c ∈ s.cellsAtI bs, c.1 ≠ a := by
  rintro c hc rfl
  obtain ⟨b, hb, he⟩ := List.mem_map.mp (List.of_mem_zip hc).1
  rw [List.mem_range'_1] at hb
  exact h ⟨b - s.i.toNat, by omega, by rw [← he]; congr 1; omega⟩

/-- A store of at most 16 bytes from I: each address holds its byte, every other byte reads as before, and the
canonical form is kept. -/
theorem State.storeAtI (s : State) (bs : List Byte) (hn : bs.length ≤ 16)
    (hwf : Memory.wf s.params.fontTable s.mem = true) :
    (∀ k, ∀ h : k < bs.length, (s.writeBytes (s.cellsAtI bs)).readByte ((s.i.toNat + k) % 0x1000) = bs[k]) ∧
    (∀ a, (¬ ∃ k < bs.length, a = (s.i.toNat + k) % 0x1000) →
      (s.writeBytes (s.cellsAtI bs)).readByte a = s.readByte a) ∧
    Memory.wf s.params.fontTable (s.writeBytes (s.cellsAtI bs)).mem = true :=
  ⟨fun k h => State.writeBytes_readByte_of_mem s _ _ hwf (s.cellsAtI_lt bs) (s.cellsAtI_nodup bs hn)
      (s.mem_cellsAtI bs k h),
    fun a h => State.writeBytes_readByte_of_notMem s _ a hwf (s.cellsAtI_lt bs) (s.notMem_cellsAtI bs a h),
    State.writeBytes_wf s _ hwf (s.cellsAtI_lt bs)⟩

@[simp] theorem bcdDigits_length (b : Byte) : (bcdDigits b).length = 3 := rfl

end Sys2Proof.Machine
end

