-- ==== Sys2Proof/Laws/Display.lean ====
section
/-! SUPPORT. Drawing (spec/44_display.md R171 to R173): which pixels a sprite's set bits land on, that no two land on
the same one, and what XORing a list of distinct pixels does to the display and the collision flag. -/

namespace Sys2Proof.Machine

/-! ## XORing pixels -/

/-- Drawing touches the display alone. -/
theorem State.drawPixels_fold_eq (c : State × Bool) (ps : List (Fin 64 × Fin 32)) :
    (ps.foldl State.drawPixel c).1 = { c.1 with disp := (ps.foldl State.drawPixel c).1.disp } := by
  induction ps generalizing c with
  | nil => rfl
  | cons p ps ih => rw [List.foldl_cons, ih]; rfl

theorem State.drawPixels_eq (s : State) (ps : List (Fin 64 × Fin 32)) :
    (s.drawPixels ps).1 = { s with disp := (s.drawPixels ps).1.disp } :=
  State.drawPixels_fold_eq (s, false) ps

@[simp] theorem State.drawPixels_v (s : State) (ps : List (Fin 64 × Fin 32)) : ((s.drawPixels ps).1).v = s.v := by
  rw [State.drawPixels_eq]

@[simp] theorem State.drawPixels_i (s : State) (ps : List (Fin 64 × Fin 32)) : ((s.drawPixels ps).1).i = s.i := by
  rw [State.drawPixels_eq]

@[simp] theorem State.drawPixels_pc (s : State) (ps : List (Fin 64 × Fin 32)) : ((s.drawPixels ps).1).pc = s.pc := by
  rw [State.drawPixels_eq]

@[simp] theorem State.drawPixels_sp (s : State) (ps : List (Fin 64 × Fin 32)) : ((s.drawPixels ps).1).sp = s.sp := by
  rw [State.drawPixels_eq]

@[simp] theorem State.drawPixels_stack (s : State) (ps : List (Fin 64 × Fin 32)) : ((s.drawPixels ps).1).stack = s.stack := by
  rw [State.drawPixels_eq]

@[simp] theorem State.drawPixels_dt (s : State) (ps : List (Fin 64 × Fin 32)) : ((s.drawPixels ps).1).dt = s.dt := by
  rw [State.drawPixels_eq]

@[simp] theorem State.drawPixels_st (s : State) (ps : List (Fin 64 × Fin 32)) : ((s.drawPixels ps).1).st = s.st := by
  rw [State.drawPixels_eq]

@[simp] theorem State.drawPixels_mem (s : State) (ps : List (Fin 64 × Fin 32)) : ((s.drawPixels ps).1).mem = s.mem := by
  rw [State.drawPixels_eq]

@[simp] theorem State.drawPixels_keys (s : State) (ps : List (Fin 64 × Fin 32)) : ((s.drawPixels ps).1).keys = s.keys := by
  rw [State.drawPixels_eq]

@[simp] theorem State.drawPixels_fault (s : State) (ps : List (Fin 64 × Fin 32)) : ((s.drawPixels ps).1).fault = s.fault := by
  rw [State.drawPixels_eq]

@[simp] theorem State.drawPixels_rand (s : State) (ps : List (Fin 64 × Fin 32)) : ((s.drawPixels ps).1).rand = s.rand := by
  rw [State.drawPixels_eq]

@[simp] theorem State.drawPixels_params (s : State) (ps : List (Fin 64 × Fin 32)) : ((s.drawPixels ps).1).params = s.params := by
  rw [State.drawPixels_eq]

@[simp] theorem State.drawPixels_readV (s : State) (ps : List (Fin 64 × Fin 32)) (z : Reg) :
    ((s.drawPixels ps).1).readV z = s.readV z := by
  rw [State.drawPixels_eq]; rfl

@[simp] theorem State.drawPixels_readByte (s : State) (ps : List (Fin 64 × Fin 32)) (a : Nat) :
    ((s.drawPixels ps).1).readByte a = s.readByte a := by
  rw [State.drawPixels_eq]; rfl

/-- A pixel after distinct pixels are drawn: toggled if drawn, else as before; the collision flag is the OR of the drawn
pixels as they were. -/
theorem State.drawPixels_fold (c : State × Bool) (ps : List (Fin 64 × Fin 32)) (hn : ps.Nodup) :
    (∀ p : Fin 64 × Fin 32, (ps.foldl State.drawPixel c).1.pixel p.1 p.2 =
      if p ∈ ps then !c.1.pixel p.1 p.2 else c.1.pixel p.1 p.2) ∧
    ((ps.foldl State.drawPixel c).2 = true ↔ c.2 = true ∨ ∃ p ∈ ps, c.1.pixel p.1 p.2 = true) := by
  induction ps generalizing c with
  | nil => simp
  | cons q ps ih =>
    obtain ⟨hq, hn⟩ := List.nodup_cons.mp hn
    obtain ⟨ih₁, ih₂⟩ := ih (State.drawPixel c q) hn
    refine ⟨fun p => ?_, ?_⟩
    · rw [List.foldl_cons, ih₁ p]
      have hpq : (p.1 = q.1 ∧ p.2 = q.2) ↔ p = q := Prod.ext_iff.symm
      by_cases hp : p = q
      · subst hp
        simp [State.drawPixel, hq]
      · simp [State.drawPixel, hpq, hp]
    · rw [List.foldl_cons, ih₂]
      simp only [State.drawPixel, Bool.or_eq_true, State.togglePixel_pixel, List.mem_cons,
        exists_eq_or_imp, or_assoc]
      refine or_congr_right (or_congr_right ?_)
      constructor
      · rintro ⟨p, hp, h⟩
        have : ¬ (p.1 = q.1 ∧ p.2 = q.2) := fun e => hq (Prod.ext e.1 e.2 ▸ hp)
        rw [if_neg this] at h
        exact ⟨p, hp, h⟩
      · rintro ⟨p, hp, h⟩
        have : ¬ (p.1 = q.1 ∧ p.2 = q.2) := fun e => hq (Prod.ext e.1 e.2 ▸ hp)
        exact ⟨p, hp, by rw [if_neg this]; exact h⟩

theorem State.drawPixels_pixel (s : State) (ps : List (Fin 64 × Fin 32)) (hn : ps.Nodup)
    (x : Fin 64) (y : Fin 32) : (s.drawPixels ps).1.pixel x y =
      if (x, y) ∈ ps then !s.pixel x y else s.pixel x y :=
  (State.drawPixels_fold (s, false) ps hn).1 (x, y)

theorem State.drawPixels_collision (s : State) (ps : List (Fin 64 × Fin 32)) (hn : ps.Nodup) :
    (s.drawPixels ps).2 = true ↔ ∃ p ∈ ps, s.pixel p.1 p.2 = true := by
  unfold State.drawPixels
  simpa using (State.drawPixels_fold (s, false) ps hn).2

/-! ## The pixels of a sprite -/

theorem mem_spriteRowPixels (bx py : Nat) (b : Byte) (p : Fin 64 × Fin 32) :
    p ∈ spriteRowPixels bx py b ↔
      ∃ k < 8, b.getLsbD (7 - k) = true ∧ p.1.val = (bx + k) % 64 ∧ p.2.val = py % 32 := by
  simp only [spriteRowPixels, List.mem_map, List.mem_filter, List.mem_range, Prod.ext_iff, Fin.ext_iff,
    columnOf, rowOf, Fin.ofNat, and_assoc]
  constructor
  · rintro ⟨k, h₁, h₂, h₃, h₄⟩; exact ⟨k, h₁, h₂, h₃.symm, h₄.symm⟩
  · rintro ⟨k, h₁, h₂, h₃, h₄⟩; exact ⟨k, h₁, h₂, h₃.symm, h₄.symm⟩

theorem mem_spritePixels (bx py : Nat) (bs : List Byte) (p : Fin 64 × Fin 32) :
    p ∈ spritePixels bx py bs ↔ ∃ r, ∃ h : r < bs.length, ∃ k < 8, bs[r].getLsbD (7 - k) = true ∧
      p.1.val = (bx + k) % 64 ∧ p.2.val = (py + r) % 32 := by
  induction bs generalizing py with
  | nil => simp [spritePixels]
  | cons b bs ih =>
    simp only [spritePixels, List.mem_append, mem_spriteRowPixels, ih]
    constructor
    · rintro (⟨k, h⟩ | ⟨r, hr, k, h₁, h₂, h₃, h₄⟩)
      · exact ⟨0, by simp, k, h⟩
      · exact ⟨r + 1, by simpa using hr, k, h₁, by simpa using h₂, h₃, by rw [h₄]; congr 1; omega⟩
    · rintro ⟨r, hr, k, h₁, h₂, h₃, h₄⟩
      cases r with
      | zero => exact .inl ⟨k, h₁, by simpa using h₂, h₃, by simpa using h₄⟩
      | succ r =>
        exact .inr ⟨r, by simpa using hr, k, h₁, by simpa using h₂, h₃, by rw [h₄]; congr 1; omega⟩

theorem spriteRowPixels_nodup (bx py : Nat) (b : Byte) : (spriteRowPixels bx py b).Nodup := by
  unfold spriteRowPixels
  refine (List.nodup_map_iff_inj_on (List.nodup_range.filter _)).mpr fun i hi j hj h => ?_
  simp only [List.mem_filter, List.mem_range] at hi hj
  simp only [Prod.mk.injEq, columnOf, Fin.ofNat, Fin.mk.injEq] at h
  omega

/-- No two set bits of a sprite of at most 32 rows land on the same pixel (R171). -/
theorem spritePixels_nodup (bx py : Nat) (bs : List Byte) (h : bs.length ≤ 32) :
    (spritePixels bx py bs).Nodup := by
  induction bs generalizing py with
  | nil => simp [spritePixels]
  | cons b bs ih =>
    rw [List.length_cons] at h
    refine List.nodup_append.mpr ⟨spriteRowPixels_nodup bx py b, ih (py + 1) (by omega), ?_⟩
    rintro p hp q hq rfl
    obtain ⟨k, _, _, _, hy⟩ := (mem_spriteRowPixels bx py b p).mp hp
    obtain ⟨r, hr, k', _, _, _, hy'⟩ := (mem_spritePixels bx (py + 1) bs p).mp hq
    omega

/-! ## Dxyn -/

theorem State.coordV_eq (s : State) (z : Reg) :
    s.coordV z = if s.params.vfAliasOrder = .sequential ∧ z = regF then 0 else s.readV z := by
  unfold State.coordV
  cases s.params.vfAliasOrder <;> simp

theorem mem_spritePixels_covered (s : State) (cx cy : Byte) (n : Nat) (px : Fin 64) (py : Fin 32) :
    (px, py) ∈ spritePixels (cx.toNat % 64) (cy.toNat % 32)
        (((List.range' s.i.toNat n).map (· % 0x1000)).map s.readByte) ↔ s.covered cx cy n px py := by
  rw [mem_spritePixels]
  unfold State.covered
  simp

/-- What Dxyn does when its addresses are in range: it draws the distinct pixels the sprite covers, then writes VF. -/
theorem execDrw_inRange (x y : Reg) (n : Nibble) (s : State) (hr : s.dataInRange n.toNat) :
    ∃ ps : List (Fin 64 × Fin 32), ps.Nodup ∧
      (∀ px py, (px, py) ∈ ps ↔ s.covered (s.coordV x) (s.coordV y) n.toNat px py) ∧
      execDrw x y n s = .next ((s.drawPixels ps).1.writeV regF (flagByte (s.drawPixels ps).2)) := by
  refine ⟨_, spritePixels_nodup _ _ _ ?_, fun px py => mem_spritePixels_covered s _ _ _ px py, ?_⟩
  · simp only [List.length_map, List.length_range']
    omega
  · simp only [execDrw, s.checkedAddrs_ok _ hr]

end Sys2Proof.Machine
end

