-- ==== Sys2Proof/Laws/Exec.lean ====
section
/-! SUPPORT. What a handler can do, said once over all instructions: it completes and leaves the fault record alone, or
it raises (spec/00_scope.md R14); and what a completed handler keeps. -/

namespace Sys2Proof.Machine

/-- What a raise leaves: the state the cycle began with, and the record (R14, R234). -/
theorem State.raise_eq (s : State) (kind : FaultKind) (i : Instr) (addr : Option Nat) :
    s.raise kind i addr =
      { s with pc := s.pc - 2, fault := some ⟨kind, s.pc - 2, some (encode i), addr⟩ } := rfl

@[simp] theorem State.raise_fault (s : State) (kind : FaultKind) (i : Instr) (addr : Option Nat) :
    (s.raise kind i addr).fault = some ⟨kind, s.pc - 2, some (encode i), addr⟩ := rfl

/-- A raise after the PC advance is the fault taken on the state the cycle began with. -/
theorem State.advance_raise (s : State) (kind : FaultKind) (i : Instr) (addr : Option Nat) :
    s.advance.raise kind i addr = { s with fault := some ⟨kind, s.pc, some (encode i), addr⟩ } := by
  simp [State.raise_eq, State.advance, State.setPc]

/-- The kind and address of a raise are ones R231 gives together. -/
def RaiseShape (kind : FaultKind) (addr : Option Nat) : Prop :=
  ∀ (pc op : Word), (FaultRecord.mk kind pc (some op) addr).shaped

theorem raiseShape_address (a : Nat) (h : 0x1000 ≤ a) : RaiseShape .addressOutOfRange (some a) :=
  fun _ _ => ⟨a, rfl, h⟩

theorem raiseShape_key (b : Byte) (h : 0xF < b.toNat) : RaiseShape .keyIndexOutOfRange (some b.toNat) :=
  fun _ _ => ⟨rfl, b.toNat, rfl, h, by have := b.isLt; show b.toNat ≤ 0xFF; omega⟩

/-- A handler that answers a next state has completed, the fault record as it was, or has raised. -/
theorem exec_next (i : Instr) (s t : State) (h : exec i s = .next t) :
    t.fault = s.fault ∨ ∃ kind addr, t = s.raise kind i addr ∧ RaiseShape kind addr := by
  cases i with
  | call nnn =>
    simp only [exec, execCall] at h
    split at h
    · cases h; exact .inr ⟨_, _, rfl, fun _ _ => ⟨rfl, rfl⟩⟩
    · split at h
      · cases h; exact .inl rfl
      · cases h
  | ret xy =>
    simp only [exec, execRet] at h
    split at h
    · cases h; exact .inr ⟨_, _, rfl, fun _ _ => ⟨rfl, rfl⟩⟩
    · split at h
      · cases h; exact .inl rfl
      · cases h
  | drw x y n =>
    simp only [exec, execDrw] at h
    obtain ⟨-, hc⟩ | ⟨-, hc⟩ := s.checkedAddrs_cases n.toNat <;> rw [hc] at h <;> cases h
    · exact .inl (by simp)
    · exact .inr ⟨_, _, rfl, raiseShape_address _ (by omega)⟩
  | skp x n =>
    simp only [exec, execSkp] at h
    obtain ⟨k, hk⟩ | ⟨hk, -, hlt⟩ := keyIndex_cases s.params.keyOob (s.readV x) <;> rw [hk] at h <;> cases h
    · exact .inl (by simp)
    · exact .inr ⟨_, _, rfl, raiseShape_key _ hlt⟩
  | sknp x n =>
    simp only [exec, execSknp] at h
    obtain ⟨k, hk⟩ | ⟨hk, -, hlt⟩ := keyIndex_cases s.params.keyOob (s.readV x) <;> rw [hk] at h <;> cases h
    · exact .inl (by simp)
    · exact .inr ⟨_, _, rfl, raiseShape_key _ hlt⟩
  | ldVxK x =>
    simp only [exec, execLdVxK] at h
    split at h <;> cases h <;> exact .inl rfl
  | ldB x =>
    simp only [exec, execLdB] at h
    obtain ⟨-, hc⟩ | ⟨-, hc⟩ := s.checkedAddrs_cases 3 <;> rw [hc] at h <;> cases h
    · exact .inl (by simp)
    · exact .inr ⟨_, _, rfl, raiseShape_address _ (by omega)⟩
  | ldMemVx x =>
    simp only [exec, execLdMemVx] at h
    obtain ⟨-, hc⟩ | ⟨-, hc⟩ := s.checkedAddrs_cases (x.val + 1) <;> rw [hc] at h <;> cases h
    · exact .inl (by simp)
    · exact .inr ⟨_, _, rfl, raiseShape_address _ (by omega)⟩
  | ldVxMem x =>
    simp only [exec, execLdVxMem] at h
    obtain ⟨-, hc⟩ | ⟨-, hc⟩ := s.checkedAddrs_cases (x.val + 1) <;> rw [hc] at h <;> cases h
    · exact .inl (by simp)
    · exact .inr ⟨_, _, rfl, raiseShape_address _ (by omega)⟩
  | cls _ => cases h; exact .inl rfl
  | jp _ => cases h; exact .inl rfl
  | seImm _ _ => cases h; exact .inl (by simp)
  | sneImm _ _ => cases h; exact .inl (by simp)
  | seReg _ _ _ => cases h; exact .inl (by simp)
  | sneReg _ _ _ => cases h; exact .inl (by simp)
  | ldImm _ _ => cases h; exact .inl rfl
  | addImm _ _ => cases h; exact .inl rfl
  | ldReg _ _ => cases h; exact .inl rfl
  | orReg _ _ => cases h; exact .inl rfl
  | andReg _ _ => cases h; exact .inl rfl
  | xorReg _ _ => cases h; exact .inl rfl
  | addReg _ _ => cases h; exact .inl (by simp)
  | sub _ _ => cases h; exact .inl (by simp)
  | shr _ _ => cases h; exact .inl (by simp)
  | subn _ _ => cases h; exact .inl (by simp)
  | shl _ _ => cases h; exact .inl (by simp)
  | ldI _ => cases h; exact .inl rfl
  | jpV0 _ => cases h; exact .inl rfl
  | rnd _ _ => cases h; exact .inl rfl
  | ldVxDt _ => cases h; exact .inl rfl
  | ldDtVx _ => cases h; exact .inl rfl
  | ldStVx _ => cases h; exact .inl rfl
  | addI _ => cases h; exact .inl rfl
  | ldF _ => cases h; exact .inl rfl

/-- No handler changes the parameters or the keypad. -/
theorem exec_params_keys (i : Instr) (s t : State) (h : exec i s = .next t) :
    t.params = s.params ∧ t.keys = s.keys := by
  cases i <;>
    simp only [exec, execCls, execRet, execJp, execCall, execSeImm, execSneImm, execSeReg, execSneReg, execLdImm,
      execAddImm, execLdReg, execOrReg, execAndReg, execXorReg, execAddReg, execSub, execShr, execSubn, execShl,
      execLdI, execJpV0, execRnd, execDrw, execSkp, execSknp, execLdVxDt, execLdVxK, execLdDtVx, execLdStVx,
      execAddI, execLdF, execLdB, execLdMemVx, execLdVxMem] at h <;>
    (repeat' split at h) <;> cases h <;> simp [State.raise]

/-- A handler keeps SP at 16 or less. -/
theorem exec_sp_le (i : Instr) (s t : State) (hs : s.sp.toNat ≤ 16) (h : exec i s = .next t) :
    t.sp.toNat ≤ 16 := by
  cases i <;>
    simp only [exec, execCls, execRet, execJp, execCall, execSeImm, execSneImm, execSeReg, execSneReg, execLdImm,
      execAddImm, execLdReg, execOrReg, execAndReg, execXorReg, execAddReg, execSub, execShr, execSubn, execShl,
      execLdI, execJpV0, execRnd, execDrw, execSkp, execSknp, execLdVxDt, execLdVxK, execLdDtVx, execLdStVx,
      execAddI, execLdF, execLdB, execLdMemVx, execLdVxMem] at h <;>
    (repeat' split at h) <;> cases h <;> simp [State.raise, hs] <;> omega

/-- A handler keeps the canonical form of memory. -/
theorem exec_mem_wf (i : Instr) (s t : State) (hs : Memory.wf s.params.fontTable s.mem = true)
    (h : exec i s = .next t) : Memory.wf t.params.fontTable t.mem = true := by
  rw [(exec_params_keys i s t h).1]
  have stored (bs : List Byte) (hl : bs.length ≤ 16) :
      Memory.wf s.params.fontTable (s.writeBytes (s.cellsAtI bs)).mem = true :=
    (s.storeAtI bs hl hs).2.2
  cases i with
  | ldB x =>
    simp only [exec, execLdB] at h
    obtain ⟨-, hc⟩ | ⟨-, hc⟩ := s.checkedAddrs_cases 3 <;> rw [hc] at h <;> cases h
    · exact stored (bcdDigits (s.readV x)) (by simp)
    · exact hs
  | ldMemVx x =>
    simp only [exec, execLdMemVx] at h
    obtain ⟨-, hc⟩ | ⟨-, hc⟩ := s.checkedAddrs_cases (x.val + 1) <;> rw [hc] at h <;> cases h
    · have := stored ((regsUpTo x).map s.readV) (by simp)
      simpa [State.cellsAtI] using this
    · exact hs
  | _ =>
    simp only [exec, execCls, execRet, execJp, execCall, execSeImm, execSneImm, execSeReg, execSneReg, execLdImm,
      execAddImm, execLdReg, execOrReg, execAndReg, execXorReg, execAddReg, execSub, execShr, execSubn, execShl,
      execLdI, execJpV0, execRnd, execDrw, execSkp, execSknp, execLdVxDt, execLdVxK, execLdDtVx, execLdStVx,
      execAddI, execLdF, execLdVxMem] at h
    (repeat' split at h) <;> cases h <;> simpa [State.raise] using hs

end Sys2Proof.Machine
end

