-- ==== Sys2Proof/Laws/Step.lean ====
section
/-! SUPPORT. What one strobe can do, said once (spec/30_encoding.md R95; spec/60_exceptions.md R233 to R236). -/

namespace Sys2Proof.Machine

@[simp] theorem tickByte_toNat (b : Byte) : (tickByte b).toNat = b.toNat - 1 := by
  have := b.isLt
  unfold tickByte
  split
  · have h1 : (1 : Byte).toNat = 1 := rfl
    rw [BitVec.toNat_sub, h1]
    omega
  · omega

theorem State.halted_eq_false (s : State) : s.halted = false ↔ s.fault = none := by
  simp [State.halted]

theorem step_of_halted (s : State) (r : FaultRecord) (h : s.fault = some r) : step s = .next s := by
  simp [step, State.halted, h]

/-- The strobe on a state whose cycle executes `i`. -/
theorem step_of_executes (s : State) (i : Instr) (h : s.Executes i) :
    step s = finishCycle (exec i s.advance) := by
  obtain ⟨hf, op, ho, hd⟩ := h
  simp [step, State.halted, hf, ho, hd]

/-- The two ways a fetch can end. -/
theorem State.fetch_cases (s : State) :
    (∃ op, s.fetch = .ok op) ∨ (∃ a, s.fetch = .error a ∧ 0x1000 ≤ a) := by
  unfold State.fetch
  obtain ⟨h, -⟩ | ⟨h, -, ha⟩ := check_cases s.params.memOob s.pc.toNat <;> rw [h]
  · obtain ⟨h', -⟩ | ⟨h', -, ha⟩ := check_cases s.params.memOob (s.pc.toNat + 1) <;> rw [h']
    · exact .inl ⟨_, rfl⟩
    · exact .inr ⟨_, rfl, ha⟩
  · exact .inr ⟨_, rfl, ha⟩

/-- Everything a strobe that answers a next state can have done: nothing, the core being halted; recorded a fault on the
state as it was; or completed a handler and ticked. -/
theorem step_next (s t : State) (h : step s = .next t) :
    (s.fault ≠ none ∧ t = s) ∨
    (s.fault = none ∧ ∃ r, t = { s with fault := some r } ∧ r.pc = s.pc ∧ r.shaped) ∨
    (∃ i u, s.Executes i ∧ exec i s.advance = .next u ∧ u.fault = none ∧ t = u.tick) := by
  cases hf : s.fault with
  | some r =>
    rw [step_of_halted s r hf] at h
    cases h
    exact .inl ⟨by simp, rfl⟩
  | none =>
    refine .inr ?_
    obtain ⟨op, ho⟩ | ⟨a, ha, hlt⟩ := s.fetch_cases
    · cases hd : decode s.params.decodeMode op with
      | error e =>
        simp only [step, State.halted, hf, Option.isSome_none, Bool.false_eq_true, if_false, ho, hd] at h
        cases h
        exact .inl ⟨rfl, _, rfl, rfl, rfl, rfl⟩
      | ok i =>
        have hi : s.Executes i := ⟨hf, op, ho, hd⟩
        rw [step_of_executes s i hi] at h
        cases he : exec i s.advance with
        | fault f => rw [he] at h; cases h
        | refused f => rw [he] at h; cases h
        | next u =>
          rw [he] at h
          obtain hu | ⟨kind, addr, rfl, hs⟩ := exec_next i s.advance u he
          · rw [State.advance_fault, hf] at hu
            simp only [finishCycle, State.halted, hu, Option.isSome_none, Bool.false_eq_true, if_false] at h
            cases h
            exact .inr ⟨i, u, hi, he, hu, rfl⟩
          · simp only [finishCycle, State.halted, State.raise_fault, Option.isSome_some, if_true] at h
            cases h
            exact .inl ⟨rfl, ⟨kind, s.pc, some (encode i), addr⟩, State.advance_raise s kind i addr, rfl,
              hs s.pc (encode i)⟩
    · simp only [step, State.halted, hf, Option.isSome_none, Bool.false_eq_true, if_false, ha] at h
      cases h
      exact .inl ⟨rfl, _, rfl, rfl, a, rfl, hlt⟩

/-- A completed cycle, taken apart. -/
theorem Cycle.inv {s t : State} {i : Instr} (h : Cycle s i t) :
    s.fault = none ∧ ∃ u, exec i s.advance = .next u ∧ u.fault = none ∧ t = u.tick := by
  obtain ⟨hi, hs, ht⟩ := h
  refine ⟨hi.1, ?_⟩
  rw [step_of_executes s i hi] at hs
  cases he : exec i s.advance with
  | fault f => rw [he] at hs; cases hs
  | refused f => rw [he] at hs; cases hs
  | next u =>
    rw [he] at hs
    simp only [finishCycle, Host.Outcome.next.injEq] at hs
    cases hu : u.fault with
    | none =>
      simp only [State.halted, hu, Option.isSome_none, Bool.false_eq_true, if_false] at hs
      exact ⟨u, rfl, hu, hs.symm⟩
    | some r =>
      simp only [State.halted, hu, Option.isSome_some, if_true] at hs
      rw [← hs, hu] at ht
      cases ht

end Sys2Proof.Machine
end

