-- ==== Sys2Proof/Laws/Boot.lean ====
section
/-! SUPPORT. The boot contents of memory, and storing a run of bytes (spec/10_state.md R44;
spec/70_reset_and_hazards.md R271 to R273). -/

namespace Sys2Proof.Machine

theorem Memory.unlisted_font (font : FontTable) (j : Fin 80) : Memory.unlisted font (0x050 + j.val) = font[j] := by
  unfold Memory.unlisted
  rw [dif_pos (by unfold Config.fontBase Config.fontSize; omega)]
  simp [Config.fontBase]

theorem Memory.unlisted_outside (font : FontTable) (a : Nat) (h : a < 0x050 ∨ 0x0A0 ≤ a) :
    Memory.unlisted font a = 0 := by
  unfold Memory.unlisted
  rw [dif_neg (by unfold Config.fontBase Config.fontSize; omega)]

theorem cellsFrom_lt (base : Nat) (bytes : List Byte) (h : base + bytes.length ≤ 0x1000) :
    ∀ c ∈ cellsFrom base bytes, c.1 < 0x1000 := by
  intro c hc
  have := (List.of_mem_zip hc).1
  rw [List.mem_range'_1] at this
  omega

theorem cellsFrom_nodup (base : Nat) (bytes : List Byte) : ((cellsFrom base bytes).map Prod.fst).Nodup := by
  unfold cellsFrom
  rw [List.map_fst_zip (by simp)]
  exact List.nodup_range'

theorem mem_cellsFrom (base : Nat) (bytes : List Byte) (k : Nat) (hk : k < bytes.length) :
    (base + k, bytes[k]) ∈ cellsFrom base bytes := by
  unfold cellsFrom
  rw [List.mem_iff_getElem]
  exact ⟨k, by simpa using hk, by simp⟩

theorem notMem_cellsFrom (base : Nat) (bytes : List Byte) (a : Nat) (h : a < base ∨ base + bytes.length ≤ a) :
    ∀ c ∈ cellsFrom base bytes, c.1 ≠ a := by
  rintro c hc rfl
  have := (List.of_mem_zip hc).1
  rw [List.mem_range'_1] at this
  omega

/-- Everything storing a run of bytes inside memory does. -/
theorem State.storeRun (s : State) (base : Nat) (bytes : List Byte) (hb : base + bytes.length ≤ 0x1000)
    (hw : Memory.wf s.params.fontTable s.mem = true) :
    (∀ k (hk : k < bytes.length), (s.writeBytes (cellsFrom base bytes)).readByte (base + k) = bytes[k]) ∧
    (∀ a, a < base ∨ base + bytes.length ≤ a →
      (s.writeBytes (cellsFrom base bytes)).readByte a = s.readByte a) ∧
    Memory.wf s.params.fontTable (s.writeBytes (cellsFrom base bytes)).mem = true :=
  ⟨fun k hk => s.writeBytes_readByte_of_mem _ _ hw (cellsFrom_lt _ _ hb) (cellsFrom_nodup _ _)
      (mem_cellsFrom base bytes k hk),
    fun a ha => s.writeBytes_readByte_of_notMem _ a hw (cellsFrom_lt _ _ hb) (notMem_cellsFrom _ _ a ha),
    s.writeBytes_wf _ hw (cellsFrom_lt _ _ hb)⟩

@[simp] theorem State.powerOn_params (p : Params) : (State.powerOn p).params = p := rfl

theorem State.powerOn_mem_wf (p : Params) :
    Memory.wf (State.powerOn p).params.fontTable (State.powerOn p).mem = true := rfl

@[simp] theorem State.zeroed_params (p : Params) : (State.zeroed p).params = p := by
  rw [State.zeroed, State.writeBytes_params, State.powerOn_params]

theorem zeroFont_length : (List.replicate Config.fontSize (0 : Byte)).length = 80 := List.length_replicate

theorem State.zeroed_mem_wf (p : Params) : Memory.wf p.fontTable (State.zeroed p).mem = true :=
  ((State.powerOn p).storeRun Config.fontBase (List.replicate Config.fontSize 0)
    (by rw [zeroFont_length]; decide) (State.powerOn_mem_wf p)).2.2

/-- The state the boot sequence starts from reads as zero everywhere. -/
theorem State.zeroed_readByte (p : Params) (a : Nat) : (State.zeroed p).readByte a = 0 := by
  obtain ⟨hin, hout, -⟩ := (State.powerOn p).storeRun Config.fontBase (List.replicate Config.fontSize 0)
    (by rw [zeroFont_length]; decide) (State.powerOn_mem_wf p)
  unfold State.zeroed
  by_cases h : a < 0x050 ∨ 0x0A0 ≤ a
  · rw [hout a (by rw [zeroFont_length]; unfold Config.fontBase; omega)]
    exact Memory.unlisted_outside _ a h
  · have := hin (a - 0x050) (by rw [zeroFont_length]; omega)
    rw [List.getElem_replicate, show Config.fontBase + (a - 0x050) = a by unfold Config.fontBase; omega] at this
    exact this

/-- Loading the font into the zeroed state gives the reset state. -/
theorem State.loadFont_zeroed (p : Params) : (State.zeroed p).loadFont = State.powerOn p := by
  have hb : Config.fontBase + p.fontTable.toList.length ≤ 0x1000 := by
    rw [Vector.length_toList]
    decide
  obtain ⟨hin, hout, hwf⟩ := (State.zeroed p).storeRun Config.fontBase p.fontTable.toList hb
    (by rw [State.zeroed_params]; exact State.zeroed_mem_wf p)
  rw [State.zeroed_params] at hwf
  have hm : ((State.zeroed p).writeBytes (cellsFrom Config.fontBase p.fontTable.toList)).mem = [] := by
    refine Memory.ext p.fontTable _ _ hwf rfl fun a _ => ?_
    have hr : Memory.read p.fontTable
          ((State.zeroed p).writeBytes (cellsFrom Config.fontBase p.fontTable.toList)).mem a =
        ((State.zeroed p).writeBytes (cellsFrom Config.fontBase p.fontTable.toList)).readByte a := by
      unfold State.readByte
      rw [State.writeBytes_params, State.zeroed_params]
    rw [hr, Memory.read_nil]
    by_cases h : a < 0x050 ∨ 0x0A0 ≤ a
    · rw [hout a (by rw [Vector.length_toList]; unfold Config.fontBase; omega), State.zeroed_readByte,
        Memory.unlisted_outside _ _ h]
    · have hi := hin (a - 0x050) (by rw [Vector.length_toList]; omega)
      have hu := Memory.unlisted_font p.fontTable ⟨a - 0x50, by omega⟩
      rw [show Config.fontBase + (a - 0x050) = a by unfold Config.fontBase; omega] at hi
      simp only [show 80 + (a - 80) = a by omega] at hu
      rw [hi, hu]
      simp
  unfold State.loadFont
  rw [State.zeroed_params, State.writeBytes_eq, hm]
  unfold State.zeroed
  rw [State.writeBytes_eq]
  rfl

end Sys2Proof.Machine
end

