-- ==== Sys2Proof/Laws/Decode.lean ====
section
/-! SUPPORT. The operand fields of words put together from their fields (spec/30_encoding.md R81), and the word put
together from its fields. -/

namespace Sys2Proof

@[simp] theorem regNibble_toFin (x : Reg) : (regNibble x).toFin = x := rfl

@[simp] theorem regNibble_of_toFin (n : Nibble) : regNibble n.toFin = n := rfl

/-! ## Four nibbles -/

@[simp] theorem fieldT_nibbles (t x y n : Nibble) : fieldT (t ++ x ++ y ++ n) = t := by
  apply BitVec.eq_of_getLsbD_eq; intro i hi
  simp only [fieldT, BitVec.getLsbD_extractLsb', BitVec.getLsbD_append]
  interval_cases i <;> simp

@[simp] theorem fieldX_nibbles (t x y n : Nibble) : fieldX (t ++ x ++ y ++ n) = x.toFin := by
  unfold fieldX; congr 1
  apply BitVec.eq_of_getLsbD_eq; intro i hi
  simp only [BitVec.getLsbD_extractLsb', BitVec.getLsbD_append]
  interval_cases i <;> simp

@[simp] theorem fieldYKey_nibbles (t x y n : Nibble) : fieldYKey (t ++ x ++ y ++ n) = y := by
  apply BitVec.eq_of_getLsbD_eq; intro i hi
  simp only [fieldYKey, BitVec.getLsbD_extractLsb', BitVec.getLsbD_append]
  interval_cases i <;> simp

@[simp] theorem fieldY_nibbles (t x y n : Nibble) : fieldY (t ++ x ++ y ++ n) = y.toFin := by
  simp [fieldY]

@[simp] theorem fieldN_nibbles (t x y n : Nibble) : fieldN (t ++ x ++ y ++ n) = n := by
  apply BitVec.eq_of_getLsbD_eq; intro i hi
  simp only [fieldN, BitVec.getLsbD_extractLsb', BitVec.getLsbD_append]
  interval_cases i <;> simp

/-! ## Nibble, register, byte -/

@[simp] theorem fieldT_regByte (t x : Nibble) (kk : Byte) : fieldT (t ++ x ++ kk) = t := by
  apply BitVec.eq_of_getLsbD_eq; intro i hi
  simp only [fieldT, BitVec.getLsbD_extractLsb', BitVec.getLsbD_append]
  interval_cases i <;> simp

@[simp] theorem fieldX_regByte (t x : Nibble) (kk : Byte) : fieldX (t ++ x ++ kk) = x.toFin := by
  unfold fieldX; congr 1
  apply BitVec.eq_of_getLsbD_eq; intro i hi
  simp only [BitVec.getLsbD_extractLsb', BitVec.getLsbD_append]
  interval_cases i <;> simp

@[simp] theorem fieldKK_regByte (t x : Nibble) (kk : Byte) : fieldKK (t ++ x ++ kk) = kk := by
  apply BitVec.eq_of_getLsbD_eq; intro i hi
  simp only [fieldKK, BitVec.getLsbD_extractLsb', BitVec.getLsbD_append]
  interval_cases i <;> simp

/-! ## Nibble and address -/

@[simp] theorem fieldT_addr (t : Nibble) (a : Addr12) : fieldT (t ++ a) = t := by
  apply BitVec.eq_of_getLsbD_eq; intro i hi
  simp only [fieldT, BitVec.getLsbD_extractLsb', BitVec.getLsbD_append]
  interval_cases i <;> simp

@[simp] theorem fieldNNN_addr (t : Nibble) (a : Addr12) : fieldNNN (t ++ a) = a := by
  apply BitVec.eq_of_getLsbD_eq; intro i hi
  simp only [fieldNNN, BitVec.getLsbD_extractLsb', BitVec.getLsbD_append]
  interval_cases i <;> simp

/-! ## Nibble, ignored byte, nibble -/

@[simp] theorem fieldT_middleByte (t n : Nibble) (xy : Byte) : fieldT (t ++ xy ++ n) = t := by
  apply BitVec.eq_of_getLsbD_eq; intro i hi
  simp only [fieldT, BitVec.getLsbD_extractLsb', BitVec.getLsbD_append]
  interval_cases i <;> simp

@[simp] theorem fieldXY_middleByte (t n : Nibble) (xy : Byte) : fieldXY (t ++ xy ++ n) = xy := by
  apply BitVec.eq_of_getLsbD_eq; intro i hi
  simp only [fieldXY, BitVec.getLsbD_extractLsb', BitVec.getLsbD_append]
  interval_cases i <;> simp

@[simp] theorem fieldN_middleByte (t n : Nibble) (xy : Byte) : fieldN (t ++ xy ++ n) = n := by
  apply BitVec.eq_of_getLsbD_eq; intro i hi
  simp only [fieldN, BitVec.getLsbD_extractLsb', BitVec.getLsbD_append]
  interval_cases i <;> simp

/-! ## A word from its fields -/

theorem word_eq_nibbles (op : Word) :
    fieldT op ++ regNibble (fieldX op) ++ fieldYKey op ++ fieldN op = op := by
  apply BitVec.eq_of_getLsbD_eq; intro i hi
  simp only [fieldT, fieldX, fieldYKey, fieldN, regNibble_of_toFin, BitVec.getLsbD_append,
    BitVec.getLsbD_extractLsb']
  interval_cases i <;> simp

theorem word_eq_regByte (op : Word) : fieldT op ++ regNibble (fieldX op) ++ fieldKK op = op := by
  apply BitVec.eq_of_getLsbD_eq; intro i hi
  simp only [fieldT, fieldX, fieldKK, regNibble_of_toFin, BitVec.getLsbD_append, BitVec.getLsbD_extractLsb']
  interval_cases i <;> simp

theorem word_eq_addr (op : Word) : fieldT op ++ fieldNNN op = op := by
  apply BitVec.eq_of_getLsbD_eq; intro i hi
  simp only [fieldT, fieldNNN, BitVec.getLsbD_append, BitVec.getLsbD_extractLsb']
  interval_cases i <;> simp

theorem word_eq_middleByte (op : Word) : fieldT op ++ fieldXY op ++ fieldN op = op := by
  apply BitVec.eq_of_getLsbD_eq; intro i hi
  simp only [fieldT, fieldXY, fieldN, BitVec.getLsbD_append, BitVec.getLsbD_extractLsb']
  interval_cases i <;> simp

/-! ## Words under the masks of opcode_table.json -/

/-- A word under the mask of the top nibble. -/
theorem and_top (op : Word) : op &&& 0xF000#16 = fieldT op ++ 0x000#12 := by
  apply BitVec.eq_of_getLsbD_eq; intro i hi
  simp only [fieldT, BitVec.getLsbD_and, BitVec.getLsbD_append, BitVec.getLsbD_extractLsb']
  interval_cases i <;> simp

/-- A word under the mask of the top and low nibbles. -/
theorem and_top_low (op : Word) : op &&& 0xF00F#16 = fieldT op ++ 0x00#8 ++ fieldN op := by
  apply BitVec.eq_of_getLsbD_eq; intro i hi
  simp only [fieldT, fieldN, BitVec.getLsbD_and, BitVec.getLsbD_append, BitVec.getLsbD_extractLsb']
  interval_cases i <;> simp

/-- A word under the mask of the top nibble and bits 7..4. -/
theorem and_top_key (op : Word) : op &&& 0xF0F0#16 = fieldT op ++ 0x0#4 ++ fieldYKey op ++ 0x0#4 := by
  apply BitVec.eq_of_getLsbD_eq; intro i hi
  simp only [fieldT, fieldYKey, BitVec.getLsbD_and, BitVec.getLsbD_append, BitVec.getLsbD_extractLsb']
  interval_cases i <;> simp

/-- A word under the mask of the top nibble and the low byte. -/
theorem and_top_byte (op : Word) : op &&& 0xF0FF#16 = fieldT op ++ 0x0#4 ++ fieldKK op := by
  apply BitVec.eq_of_getLsbD_eq; intro i hi
  simp only [fieldT, fieldKK, BitVec.getLsbD_and, BitVec.getLsbD_append, BitVec.getLsbD_extractLsb']
  interval_cases i <;> simp

/-! ## Bytes -/

/-- A word has the byte it was made of in its high half and in its low half. -/
@[simp] theorem wordOfBytes_split (op : Word) :
    wordOfBytes (op.extractLsb' 8 8) (op.extractLsb' 0 8) = op := by
  apply BitVec.eq_of_getLsbD_eq; intro i hi
  simp only [wordOfBytes, BitVec.getLsbD_append, BitVec.getLsbD_extractLsb']
  interval_cases i <;> simp

theorem wordOfBytes_toNat (hi lo : Byte) : (wordOfBytes hi lo).toNat = 0x100 * hi.toNat + lo.toNat := by
  unfold wordOfBytes
  rw [BitVec.toNat_append, ← Nat.shiftLeft_add_eq_or_of_lt lo.isLt, Nat.shiftLeft_eq]
  omega

end Sys2Proof
end

