-- ==== Sys2Proof/Laws/PerInstr.lean ====
section
/-! SUPPORT. The family TableMatch, one lemma per instruction: an instruction's word has, under its row's DOC_KEYS
mask, its row's bits (spec/30_encoding.md R91, opcode_table.json). -/

namespace Sys2Proof.Laws.TableMatch

/-- The word of the instruction fits its row of the opcode table. -/
def Statement (i : Instr) : Prop := encode i &&& i.row.mask = i.row.bits

theorem cls (xy : Byte) : Statement (.cls xy) := by
  simp [Statement, Instr.row, encode, and_top_low]

theorem ret (xy : Byte) : Statement (.ret xy) := by
  simp [Statement, Instr.row, encode, and_top_low]

theorem jp (nnn : Addr12) : Statement (.jp nnn) := by
  simp [Statement, Instr.row, OpcodeRow.plain, encode, and_top]

theorem call (nnn : Addr12) : Statement (.call nnn) := by
  simp [Statement, Instr.row, OpcodeRow.plain, encode, and_top]

theorem seImm (x : Reg) (kk : Byte) : Statement (.seImm x kk) := by
  simp [Statement, Instr.row, OpcodeRow.plain, encode, and_top]

theorem sneImm (x : Reg) (kk : Byte) : Statement (.sneImm x kk) := by
  simp [Statement, Instr.row, OpcodeRow.plain, encode, and_top]

theorem seReg (x y : Reg) (n : Nibble) : Statement (.seReg x y n) := by
  simp [Statement, Instr.row, encode, and_top]

theorem ldImm (x : Reg) (kk : Byte) : Statement (.ldImm x kk) := by
  simp [Statement, Instr.row, OpcodeRow.plain, encode, and_top]

theorem addImm (x : Reg) (kk : Byte) : Statement (.addImm x kk) := by
  simp [Statement, Instr.row, OpcodeRow.plain, encode, and_top]

theorem ldReg (x y : Reg) : Statement (.ldReg x y) := by
  simp [Statement, Instr.row, OpcodeRow.plain, encode, and_top_low]

theorem orReg (x y : Reg) : Statement (.orReg x y) := by
  simp [Statement, Instr.row, OpcodeRow.plain, encode, and_top_low]

theorem andReg (x y : Reg) : Statement (.andReg x y) := by
  simp [Statement, Instr.row, OpcodeRow.plain, encode, and_top_low]

theorem xorReg (x y : Reg) : Statement (.xorReg x y) := by
  simp [Statement, Instr.row, OpcodeRow.plain, encode, and_top_low]

theorem addReg (x y : Reg) : Statement (.addReg x y) := by
  simp [Statement, Instr.row, OpcodeRow.plain, encode, and_top_low]

theorem sub (x y : Reg) : Statement (.sub x y) := by
  simp [Statement, Instr.row, OpcodeRow.plain, encode, and_top_low]

theorem shr (x y : Reg) : Statement (.shr x y) := by
  simp [Statement, Instr.row, OpcodeRow.plain, encode, and_top_low]

theorem subn (x y : Reg) : Statement (.subn x y) := by
  simp [Statement, Instr.row, OpcodeRow.plain, encode, and_top_low]

theorem shl (x y : Reg) : Statement (.shl x y) := by
  simp [Statement, Instr.row, OpcodeRow.plain, encode, and_top_low]

theorem sneReg (x y : Reg) (n : Nibble) : Statement (.sneReg x y n) := by
  simp [Statement, Instr.row, encode, and_top]

theorem ldI (nnn : Addr12) : Statement (.ldI nnn) := by
  simp [Statement, Instr.row, OpcodeRow.plain, encode, and_top]

theorem jpV0 (nnn : Addr12) : Statement (.jpV0 nnn) := by
  simp [Statement, Instr.row, OpcodeRow.plain, encode, and_top]

theorem rnd (x : Reg) (kk : Byte) : Statement (.rnd x kk) := by
  simp [Statement, Instr.row, OpcodeRow.plain, encode, and_top]

theorem drw (x y : Reg) (n : Nibble) : Statement (.drw x y n) := by
  simp [Statement, Instr.row, OpcodeRow.plain, encode, and_top]

theorem skp (x : Reg) (n : Nibble) : Statement (.skp x n) := by
  simp [Statement, Instr.row, encode, and_top_key]

theorem sknp (x : Reg) (n : Nibble) : Statement (.sknp x n) := by
  simp [Statement, Instr.row, encode, and_top_key]

theorem ldVxDt (x : Reg) : Statement (.ldVxDt x) := by
  simp [Statement, Instr.row, OpcodeRow.plain, encode, and_top_byte]

theorem ldVxK (x : Reg) : Statement (.ldVxK x) := by
  simp [Statement, Instr.row, OpcodeRow.plain, encode, and_top_byte]

theorem ldDtVx (x : Reg) : Statement (.ldDtVx x) := by
  simp [Statement, Instr.row, OpcodeRow.plain, encode, and_top_byte]

theorem ldStVx (x : Reg) : Statement (.ldStVx x) := by
  simp [Statement, Instr.row, OpcodeRow.plain, encode, and_top_byte]

theorem addI (x : Reg) : Statement (.addI x) := by
  simp [Statement, Instr.row, OpcodeRow.plain, encode, and_top_byte]

theorem ldF (x : Reg) : Statement (.ldF x) := by
  simp [Statement, Instr.row, OpcodeRow.plain, encode, and_top_byte]

theorem ldB (x : Reg) : Statement (.ldB x) := by
  simp [Statement, Instr.row, OpcodeRow.plain, encode, and_top_byte]

theorem ldMemVx (x : Reg) : Statement (.ldMemVx x) := by
  simp [Statement, Instr.row, OpcodeRow.plain, encode, and_top_byte]

theorem ldVxMem (x : Reg) : Statement (.ldVxMem x) := by
  simp [Statement, Instr.row, OpcodeRow.plain, encode, and_top_byte]

end Sys2Proof.Laws.TableMatch
end

