-- ==== Sys2Proof/Tests/Slice0.lean ====
section
/-! SUPPORT. The modeller's own tests. Expected values come from spec/95_test_vectors.md (the vector's id stands
before each test) and, for decoding, from the patterns of spec/30_encoding.md R94; after them a witness for the
hypotheses of every obligation that has some. -/

open Sys2Proof Sys2Proof.Machine

namespace Sys2Proof.Tests

/-! ## Helpers -/

/-- The boot state with a word at 0x200. -/
def start (op : Nat) : State := State.reset.withFetchWord 16 op

/-- The strobe answers a next state of which `p` holds. -/
def after (s : State) (p : State → Bool) : Bool :=
  match step s with
  | .next t => p t
  | .fault _ => false
  | .refused _ => false

/-- The state a handler leaves. -/
def run (i : Instr) (s : State) : State :=
  match exec i s with
  | .next t => t
  | .fault _ => s
  | .refused _ => s

/-- The state a strobe leaves. -/
def strobe (s : State) : State :=
  match step s with
  | .next t => t
  | .fault _ => s
  | .refused _ => s

/-- Exactly these pixels are on. -/
def lit (t : State) (ps : List (Fin 64 × Fin 32)) : Bool :=
  ps.all (fun p => t.pixel p.1 p.2) &&
    (t.disp.toList.map (fun row => (row.toList.filter id).length)).sum == ps.length

/-- The strobe takes exactly this fault, and nothing else changes. -/
def faults (s : State) (kind : FaultKind) (opcode : Option Word) (addr : Option Nat) : Bool :=
  after s (fun t => t.fault == some ⟨kind, s.pc, opcode, addr⟩ && t.pc == s.pc && t.dt == s.dt && t.sp == s.sp &&
    t.mem == s.mem && t.v == s.v)

/-- The boot state under other parameters. -/
def withParams (s : State) (f : Params → Params) : State := { s with params := f s.params }

/-- The bytes stored from an address on. -/
def withBytes (s : State) (base : Nat) (bytes : List Byte) : State := s.writeBytes (cellsFrom base bytes)

/-! ## Well-formedness: CANONICAL_ONLY refuses each ill-formed term -/

theorem test_wf_refuses_cls : (Instr.cls 0x00).wellFormed .canonicalOnly = false := by decide
theorem test_wf_refuses_ret : (Instr.ret 0x12).wellFormed .canonicalOnly = false := by decide
theorem test_wf_refuses_seReg : (Instr.seReg 1 2 1).wellFormed .canonicalOnly = false := by decide
theorem test_wf_refuses_sneReg : (Instr.sneReg 1 2 1).wellFormed .canonicalOnly = false := by decide
theorem test_wf_refuses_skp : (Instr.skp 5 0xF).wellFormed .canonicalOnly = false := by decide
theorem test_wf_refuses_sknp : (Instr.sknp 5 2).wellFormed .canonicalOnly = false := by decide
theorem test_wf_accepts_canonical : (Instr.cls 0x0E).wellFormed .canonicalOnly = true ∧
    (Instr.ret 0x0E).wellFormed .canonicalOnly = true ∧ (Instr.seReg 1 2 0).wellFormed .canonicalOnly = true ∧
    (Instr.sneReg 1 2 0).wellFormed .canonicalOnly = true ∧ (Instr.skp 5 0xE).wellFormed .canonicalOnly = true ∧
    (Instr.sknp 5 1).wellFormed .canonicalOnly = true ∧ (Instr.cls 0x00).wellFormed .docKeys = true := by decide

/-! ## Decoding: every constructor, by a word written out bit by bit -/

theorem test_decode_0 : decodeTableWord 16 0b0000000011100000 = some (.cls 0x0E) ∧
    decodeTableWord 16 0b0000000011101110 = some (.ret 0x0E) := by decide
theorem test_decode_jumps : decodeTableWord 16 0b0001001000110100 = some (.jp 0x234) ∧
    decodeTableWord 16 0b0010001000000110 = some (.call 0x206) ∧
    decodeTableWord 16 0b1011001100000000 = some (.jpV0 0x300) := by decide
theorem test_decode_skips : decodeTableWord 16 0b0011001100010000 = some (.seImm 3 0x10) ∧
    decodeTableWord 16 0b0100001100010000 = some (.sneImm 3 0x10) ∧
    decodeTableWord 16 0b0101000100100000 = some (.seReg 1 2 0) ∧
    decodeTableWord 16 0b1001000100100000 = some (.sneReg 1 2 0) := by decide
theorem test_decode_immediates : decodeTableWord 16 0b0110101000000101 = some (.ldImm 0xA 0x05) ∧
    decodeTableWord 16 0b0111101000000010 = some (.addImm 0xA 0x02) ∧
    decodeTableWord 16 0b1010001100000000 = some (.ldI 0x300) ∧
    decodeTableWord 16 0b1100001100001111 = some (.rnd 3 0x0F) := by decide
theorem test_decode_8 : decodeTableWord 16 0b1000000000010000 = some (.ldReg 0 1) ∧
    decodeTableWord 16 0b1000000000010001 = some (.orReg 0 1) ∧
    decodeTableWord 16 0b1000000000010010 = some (.andReg 0 1) ∧
    decodeTableWord 16 0b1000000000010011 = some (.xorReg 0 1) ∧
    decodeTableWord 16 0b1000000000010100 = some (.addReg 0 1) ∧
    decodeTableWord 16 0b1000000000010101 = some (.sub 0 1) ∧
    decodeTableWord 16 0b1000001011110110 = some (.shr 2 0xF) ∧
    decodeTableWord 16 0b1000000000010111 = some (.subn 0 1) ∧
    decodeTableWord 16 0b1000001000001110 = some (.shl 2 0) := by decide
theorem test_decode_draw : decodeTableWord 16 0b1101101010110101 = some (.drw 0xA 0xB 5) := by decide
theorem test_decode_E : decodeTableWord 16 0b1110010110011110 = some (.skp 5 0xE) ∧
    decodeTableWord 16 0b1110010110100001 = some (.sknp 5 1) := by decide
theorem test_decode_F : decodeTableWord 16 0b1111000100000111 = some (.ldVxDt 1) ∧
    decodeTableWord 16 0b1111001100001010 = some (.ldVxK 3) ∧
    decodeTableWord 16 0b1111000000010101 = some (.ldDtVx 0) ∧
    decodeTableWord 16 0b1111001000011000 = some (.ldStVx 2) ∧
    decodeTableWord 16 0b1111000000011110 = some (.addI 0) ∧
    decodeTableWord 16 0b1111010000101001 = some (.ldF 4) ∧
    decodeTableWord 16 0b1111001100110011 = some (.ldB 3) ∧
    decodeTableWord 16 0b1111111101010101 = some (.ldMemVx 0xF) ∧
    decodeTableWord 16 0b1111000001100101 = some (.ldVxMem 0) := by decide
/-- E7, E14, E15, E16. -/
theorem test_decode_refuses : decodeTableWord 16 0x0123 = none ∧ decodeTableWord 16 0xE0E0 = none ∧
    decodeTableWord 16 0x8008 = none ∧ decodeTableWord 16 0x800F = none ∧ decodeTableWord 16 0xF000 = none ∧
    decodeTableWord 16 0xF10B = none := by decide
theorem test_decode_truncated : decodeBytes .docKeys [0x12] = .error .truncated := rfl

/-! ## Control flow -/

/-- E1. -/
theorem test_jp : after (start 0x1234) (fun t => t.pc == 0x234) = true := by decide
/-- C2. -/
theorem test_call : after (start 0x2300) (fun t => t.stack[0] == 0x202 && t.sp == 1 && t.pc == 0x300) = true := by
  decide
/-- C3. -/
theorem test_call_full : faults { start 0x2300 with sp := 16, dt := 7 } .stackOverflow (some 0x2300) none = true := by
  decide
/-- C5. -/
theorem test_ret : after { start 0x00EE with sp := 1, stack := State.reset.stack.set 0 0x202 }
    (fun t => t.sp == 0 && t.pc == 0x202 && t.stack[0] == 0x202) = true := by decide
/-- C4. -/
theorem test_ret_empty : faults (start 0x00EE) .stackUnderflow (some 0x00EE) none = true := by decide
/-- C6, C7. -/
theorem test_seImm : after ((start 0x3310).writeV 3 0x10) (fun t => t.pc == 0x204) = true ∧
    after ((start 0x3310).writeV 3 0x11) (fun t => t.pc == 0x202) = true := by decide
/-- C8, C9. -/
theorem test_sneImm : after ((start 0x4310).writeV 3 0x11) (fun t => t.pc == 0x204) = true ∧
    after ((start 0x4310).writeV 3 0x10) (fun t => t.pc == 0x202) = true := by decide
/-- E9. -/
theorem test_seReg : after (((start 0x5121).writeV 1 7).writeV 2 7) (fun t => t.pc == 0x204) = true ∧
    faults (withParams (start 0x5121) fun p => { p with decodeMode := .canonicalOnly })
      .unknownOpcode (some 0x5121) none = true := by decide
/-- E10, C11. -/
theorem test_sneReg : after (((start 0x9121).writeV 1 7).writeV 2 8) (fun t => t.pc == 0x204) = true ∧
    after (start 0x9110) (fun t => t.pc == 0x202) = true := by decide
/-- C14, C16. -/
theorem test_jpV0 : after ((start 0xBFFF).writeV 0 0xFF) (fun t => t.pc == 0x10FE) = true ∧
    after ((start 0xB123).writeV 1 0x50) (fun t => t.pc == 0x123) = true := by decide

/-! ## Loads, arithmetic, logic, flags -/

/-- L1.2, first cycle. -/
theorem test_ldImm : after (start 0x6A05) (fun t => t.readV 0xA == 5 && t.pc == 0x202) = true := by decide
/-- A2, A3. -/
theorem test_addImm : after (((start 0x7A02).writeV 0xA 0xFF).writeV regF 0x33)
      (fun t => t.readV 0xA == 1 && t.readV regF == 0x33) = true ∧
    after ((start 0x7F01).writeV regF 0x10) (fun t => t.readV regF == 0x11) = true := by decide

/-- V0, V1 and VF set. -/
def operands (s : State) (v0 v1 vf : Byte) : State := ((s.writeV 0 v0).writeV 1 v1).writeV regF vf

/-- V0 and VF after the strobe. -/
def gives (s : State) (v0 vf : Byte) : Bool := after s (fun t => t.readV 0 == v0 && t.readV regF == vf)

/-- A4, A5, A6, A7. -/
theorem test_ldReg : gives (operands (start 0x8010) 0 0x42 0x33) 0x42 0x33 = true := by decide
theorem test_orReg : gives (operands (start 0x8011) 0xF0 0x0F 0x33) 0xFF 0x33 = true := by decide
theorem test_andReg : gives (operands (start 0x8012) 0xF0 0x3C 0x33) 0x30 0x33 = true := by decide
theorem test_xorReg : gives (operands (start 0x8013) 0xF0 0x3C 0x33) 0xCC 0x33 = true := by decide
/-- F1, F2. -/
theorem test_addReg : gives (operands (start 0x8014) 0x80 0x80 0x55) 0x00 1 = true ∧
    gives (operands (start 0x8014) 0x7F 0x80 0x55) 0xFF 0 = true := by decide
/-- F4, L1.4. -/
theorem test_sub : gives (operands (start 0x8015) 5 5 0x55) 0 0 = true ∧
    gives (operands (start 0x8015) 1 2 0x55) 0xFF 0 = true := by decide
/-- F7, F9. -/
theorem test_subn : gives (operands (start 0x8017) 3 5 0x55) 2 1 = true ∧
    gives (operands (start 0x8017) 5 5 0x55) 0 0 = true := by decide
/-- F10, F15: the shifts take the LOW bit before the shift (V0 in place of the vectors' V2). -/
theorem test_shr : gives (operands (start 0x80F6) 5 0 0x99) 2 1 = true := by decide
theorem test_shl : gives (operands (start 0x801E) 0x80 0 0x55) 0 0 = true ∧
    gives (operands (start 0x801E) 0x81 0 0x55) 2 1 = true := by decide

/-- VF after the strobe under the three VF_ALIAS_ORDERs. -/
def vfUnder (s : State) : List Nat :=
  [VfAliasOrder.resultLast, .flagLast, .sequential].map fun o =>
    ((strobe (withParams s fun p => { p with vfAliasOrder := o })).readV regF).toNat

/-- X1, X3, X5, X7, X8. -/
theorem test_alias : vfUnder (operands (start 0x8F14) 0 1 0xFF) = [0x00, 0x01, 0x00] ∧
    vfUnder (operands (start 0x8F15) 0 3 5) = [0x02, 0x01, 0xFE] ∧
    vfUnder (operands (start 0x8F17) 0 5 3) = [0x02, 0x01, 0x04] ∧
    vfUnder (operands (start 0x8F06) 0 0 5) = [0x02, 0x01, 0x00] ∧
    vfUnder (operands (start 0x8F0E) 0 0 3) = [0x06, 0x01, 0x02] := by decide
/-- X4, X6 under SEQUENTIAL. -/
theorem test_alias_source :
    gives (withParams (operands (start 0x80F5) 5 0 3) fun p => { p with vfAliasOrder := .sequential }) 4 1 = true ∧
    gives (withParams (operands (start 0x80F7) 3 0 5) fun p => { p with vfAliasOrder := .sequential })
      0xFE 1 = true := by decide

/-! ## Index, random, display -/

/-- I1. -/
theorem test_ldI : after { start 0xAFFF with i := 0x123 } (fun t => t.i == 0xFFF) = true := by decide
/-- I2. -/
theorem test_rnd : after ((start 0xC30F).injectRand [0xA7, 0x5A])
    (fun t => t.readV 3 == 7 && t.rand == ⟨[0x5A], 1⟩) = true := by decide
/-- D12. -/
theorem test_cls : after (((start 0x00E0).togglePixel 0 0).togglePixel 63 31)
    (fun t => lit t [] && t.pc == 0x202) = true := by decide
/-- D2, D3. -/
theorem test_drw_wraps :
    after (withBytes { start 0xD011 with i := 0x300, v := State.reset.v.set 0 0x3E } 0x300 [0xFF])
      (fun t => lit t [(62, 0), (63, 0), (0, 0), (1, 0), (2, 0), (3, 0), (4, 0), (5, 0)] && t.readV regF == 0) = true ∧
    after (withBytes { start 0xD012 with i := 0x300, v := State.reset.v.set 1 0x1F } 0x300 [0x80, 0x80])
      (fun t => lit t [(0, 31), (0, 0)]) = true := by decide
/-- D5, D8. -/
theorem test_drw_collides_and_faults :
    after (withBytes { (start 0xD011).togglePixel 1 0 with i := 0x300 } 0x300 [0xC0])
      (fun t => lit t [(0, 0)] && t.readV regF == 1) = true ∧
    faults (withBytes { start 0xD012 with i := 0xFFF, v := State.reset.v.set 15 0x55 } 0xFFF [0x80])
      .addressOutOfRange (some 0xD012) (some 0x1000) = true := by decide

/-! ## Keypad -/

/-- K1, K6. -/
theorem test_skp : after (((start 0xE59E).writeV 5 3).setKey 3 true) (fun t => t.pc == 0x204) = true ∧
    after (withParams (((start 0xE59E).writeV 5 0x10).setKey 0 true) fun p => { p with keyOob := .mask })
      (fun t => t.pc == 0x204) = true := by decide
/-- K5. -/
theorem test_skp_faults : faults (((start 0xE59E).writeV 5 0x10).setKey 0 true)
    .keyIndexOutOfRange (some 0xE59E) (some 0x10) = true := by decide
/-- K3, K4. -/
theorem test_sknp : after ((start 0xE5A1).writeV 5 3) (fun t => t.pc == 0x204) = true ∧
    after (((start 0xE5A1).writeV 5 3).setKey 3 true) (fun t => t.pc == 0x202) = true := by decide
/-- K8, L1.7's first cycle. -/
theorem test_ldVxK : after (((start 0xF30A).setKey 7 true).setKey 2 true)
      (fun t => t.readV 3 == 2 && t.pc == 0x202) = true ∧
    after { (start 0xF30A).writeV 3 0x77 with dt := 5 }
      (fun t => t.readV 3 == 0x77 && t.pc == 0x200 && t.dt == 4) = true := by decide

/-! ## Timers, index arithmetic, memory -/

/-- T1, T2, T5. -/
theorem test_ldVxDt : after { start 0xF107 with dt := 5 } (fun t => t.readV 1 == 5 && t.dt == 4) = true := by
  decide
theorem test_ldDtVx : after ((start 0xF015).writeV 0 2) (fun t => t.dt == 1) = true := by decide
theorem test_ldStVx : after ((start 0xF218).writeV 2 0x0A) (fun t => t.st == 9) = true := by decide
/-- T6, T7. -/
theorem test_addI : after { (start 0xF01E).writeV 0 1 with i := 0xFFF } (fun t => t.i == 0x1000) = true ∧
    after { (start 0xF01E).writeV 0 1 with i := 0xFFFF } (fun t => t.i == 0) = true := by decide
/-- T8, T11. -/
theorem test_ldF : after ((start 0xF429).writeV 4 0x0A) (fun t => t.i == 0x82) = true ∧
    after ((start 0xF429).writeV 4 0xFF) (fun t => t.i == 0x54B) = true := by decide
/-- T15, T16. -/
theorem test_ldB : after { (start 0xF333).writeV 3 0x80 with i := 0xFFD }
      (fun t => t.readByte 0xFFD == 1 && t.readByte 0xFFE == 2 && t.readByte 0xFFF == 8 && t.i == 0xFFD) = true ∧
    faults { (start 0xF333).writeV 3 0x80 with i := 0xFFE } .addressOutOfRange (some 0xF333) (some 0x1000) = true := by
  decide

/-- V0..VF = 10 11 ... 1F. -/
def counted : RegFile := Vector.ofFn fun j => BitVec.ofNat 8 (0x10 + j.val)

/-- T17, T18. -/
theorem test_ldMemVx : after { start 0xFF55 with i := 0xFF0, v := counted }
      (fun t => t.readByte 0xFF0 == 0x10 && t.readByte 0xFF1 == 0x11 && t.readByte 0xFFF == 0x1F && t.i == 0xFF0) = true ∧
    faults { start 0xFF55 with i := 0xFF1, v := counted } .addressOutOfRange (some 0xFF55) (some 0x1000) = true := by
  decide
/-- T20, and that Fx65 stops at x. -/
theorem test_ldVxMem : after (withBytes { (start 0xF065).writeV 1 0x99 with i := 0x300 } 0x300 [0x11, 0x22])
    (fun t => t.readV 0 == 0x11 && t.readV 1 == 0x99 && t.i == 0x300) = true := by decide

/-! ## The cycle, reset and boot -/

/-- E3, C15. -/
theorem test_fetch_outside : faults { State.reset with pc := 0xFFF } .addressOutOfRange none (some 0x1000) = true ∧
    after (withParams { State.reset with pc := 0x10FE } fun p => { p with memOob := .wrap })
      (fun t => t.pc == 0x1100) = true := by decide
/-- H2. -/
theorem test_unknown : faults { start 0x0123 with dt := 3 } .unknownOpcode (some 0x0123) none = true := by decide
/-- B4's first cycle, from reset with nothing placed: the empty program's first word is CLS. -/
theorem test_reset_runs : after State.reset (fun t => t.pc == 0x202 && t.fault == none) = true := by decide
/-- B6. -/
theorem test_reset_font : (List.range 5).map (fun k => (State.reset.readByte (0x50 + k)).toNat) =
      [0xF0, 0x90, 0x90, 0x90, 0xF0] ∧
    (List.range 5).map (fun k => (State.reset.readByte (0x9B + k)).toNat) = [0xF0, 0x80, 0xF0, 0x80, 0x80] := by
  decide
/-- R231's codes. -/
theorem test_codes : [FaultKind.unknownOpcode, .stackOverflow, .stackUnderflow, .addressOutOfRange,
      .keyIndexOutOfRange].map (fun k => k.code.toNat) = [1, 2, 3, 4, 5] ∧
    [BootError.romUnreadable, .romTooLarge].map (fun k => k.code.toNat) = [0x10, 0x11] := by decide
/-- The host's placement clears a halt and moves a PC that cannot be fetched from. -/
theorem test_withFetchWord : after (State.withFetchWord
      { State.reset with pc := 0xFFFF, fault := some ⟨.unknownOpcode, 0xFFFF, some 0, none⟩ } 16 0x6A05)
    (fun t => t.readV 0xA == 5 && t.pc == 0x202 && t.fault == none) = true := by decide

/-! ## Witnesses: states and operands that meet the hypotheses of the obligations -/

theorem witness_DecodeOfEncode : (Instr.seReg 1 2 0).wellFormed .canonicalOnly = true ∧
    (Instr.seReg 1 2 1).wellFormed .docKeys = true := by decide
theorem witness_EncodeOfDecode : decode .docKeys 0x5121 = .ok (.seReg 1 2 1) ∧
    decode .canonicalOnly 0xE59E = .ok (.skp 5 0xE) := ⟨rfl, rfl⟩
theorem witness_DecodeFollowsOpcodeTable : decode .docKeys 0x0120 = .ok (.cls 0x12) ∧
    (Instr.cls 0x12).row.fits .docKeys 0x0120 ∧ (Instr.sknp 0 1).row.fits .canonicalOnly 0xE7A1 := ⟨rfl, rfl, rfl⟩
theorem witness_EightAndFFamilyKeys : 0xF ∈ [0x8, 0x9, 0xA, 0xB, 0xC, 0xD, 0xF] ∧ 0xFF < 0x100 ∧
    0xFF ∉ [0x07, 0x0A, 0x15, 0x18, 0x1E, 0x29, 0x33, 0x55, 0x65] := by decide
theorem witness_RejectedWords : decode .docKeys 0x0001 = .error (.unknownOpcode 0x0001) ∧
    decode .docKeys 0x8008 = .error (.unknownOpcode 0x8008) ∧ decode .docKeys 0xEF8E = .error (.unknownOpcode 0xEF8E) ∧
    decode .docKeys 0xFFFF = .error (.unknownOpcode 0xFFFF) :=
  ⟨rfl, rfl, rfl, rfl⟩

theorem witness_StepRunsTheDecodedInstruction : (start 0x8014).Executes (.addReg 0 1) ∧
    ∃ t, exec (.addReg 0 1) { start 0x8014 with pc := (start 0x8014).pc + 2 } = .next t ∧ t.fault = none :=
  ⟨⟨rfl, 0x8014, rfl, rfl⟩, _, rfl, rfl⟩
/-- Both clauses: RET with nothing held raises; with SP = 17 it stops. -/
theorem witness_StepPassesOnAFault : (start 0x00EE).Executes (.ret 0x0E) ∧
    (∃ t r, exec (.ret 0x0E) { start 0x00EE with pc := (start 0x00EE).pc + 2 } = .next t ∧ t.fault = some r) ∧
    State.Executes { start 0x00EE with sp := 17 } (.ret 0x0E) ∧
    ∃ f, exec (.ret 0x0E) { start 0x00EE with pc := (start 0x00EE).pc + 2, sp := 17 } = .fault f :=
  ⟨⟨rfl, 0x00EE, rfl, rfl⟩, ⟨_, _, rfl, rfl⟩, ⟨rfl, 0x00EE, rfl, rfl⟩, ⟨_, rfl⟩⟩
theorem witness_FetchIsBigEndian : ({ State.reset with pc := 0xFFE } : State).pc.toNat + 1 ≤ 0xFFF := by decide
/-- Both clauses, at the lowest PC they speak of. -/
theorem witness_FetchOutsideMemory : State.reset.fault = none ∧
    0xFFF ≤ ({ State.reset with pc := 0xFFF } : State).pc.toNat ∧ State.reset.params.memOob = .fault ∧
    (withParams State.reset fun p => { p with memOob := .wrap }).params.memOob = .wrap := ⟨rfl, by decide, rfl, rfl⟩
theorem witness_UnknownWordFaults : (start 0x0123).fault = none ∧ (start 0x0123).fetch = .ok 0x0123 ∧
    decode (start 0x0123).params.decodeMode 0x0123 = .error (.unknownOpcode 0x0123) := ⟨rfl, rfl, rfl⟩
theorem witness_HaltedCoreIsFrozen : (strobe (start 0x0123)).fault = some ⟨.unknownOpcode, 0x200, some 0x0123, none⟩ :=
  rfl
theorem witness_FaultingCycleIsPrecise : (start 0x00EE).fault = none ∧
    step (start 0x00EE) = .next (strobe (start 0x00EE)) ∧
    (strobe (start 0x00EE)).fault = some ⟨.stackUnderflow, 0x200, some 0x00EE, none⟩ := ⟨rfl, rfl, rfl⟩

/-- A legal state with memory listed and the stack full. -/
theorem legal_full : State.Legal { start 0xF055 with sp := 16 } :=
  ⟨by decide, by decide, fun _ h => by cases h⟩
theorem witness_StepKeepsLegal : State.Legal { start 0xF055 with sp := 16 } ∧
    ∃ t, step { start 0xF055 with sp := 16 } = .next t := ⟨legal_full, _, rfl⟩
theorem witness_EveryStrobeAnswers : State.Legal { start 0xF055 with sp := 16 } := legal_full

/-- A completed cycle of the instruction the state's word decodes to. -/
theorem cycle_of (s : State) (i : Instr) (h : s.Executes i) (hs : step s = .next (strobe s))
    (hf : (strobe s).fault = none) : Cycle s i (strobe s) := ⟨h, hs, hf⟩
/-- One completed cycle for each arm of the statement. -/
theorem witness_PcAfterACycle : (∃ t, Cycle (start 0x1FFF) (.jp 0xFFF) t) ∧ (∃ t, Cycle (start 0x2FFF) (.call 0xFFF) t) ∧
    (∃ t, Cycle ((start 0xBFFF).writeV 0 0xFF) (.jpV0 0xFFF) t) ∧
    (∃ t, Cycle { start 0x00EE with sp := 16 } (.ret 0x0E) t) ∧ (∃ t, Cycle (start 0x3000) (.seImm 0 0) t) ∧
    (∃ t, Cycle (start 0xF30A) (.ldVxK 3) t) ∧ (∃ t, Cycle (start 0x6A05) (.ldImm 0xA 5) t) :=
  ⟨⟨_, cycle_of _ _ ⟨rfl, 0x1FFF, rfl, rfl⟩ rfl rfl⟩, ⟨_, cycle_of _ _ ⟨rfl, 0x2FFF, rfl, rfl⟩ rfl rfl⟩,
    ⟨_, cycle_of _ _ ⟨rfl, 0xBFFF, rfl, rfl⟩ rfl rfl⟩, ⟨_, cycle_of _ _ ⟨rfl, 0x00EE, rfl, rfl⟩ rfl rfl⟩,
    ⟨_, cycle_of _ _ ⟨rfl, 0x3000, rfl, rfl⟩ rfl rfl⟩, ⟨_, cycle_of _ _ ⟨rfl, 0xF30A, rfl, rfl⟩ rfl rfl⟩,
    ⟨_, cycle_of _ _ ⟨rfl, 0x6A05, rfl, rfl⟩ rfl rfl⟩⟩
theorem witness_TimersAfterACycle : (∃ t, Cycle (start 0xF015) (.ldDtVx 0) t) ∧ (∃ t, Cycle (start 0xF018) (.ldStVx 0) t) ∧
    ∃ t, Cycle { start 0x6A05 with dt := 0xFF, st := 0 } (.ldImm 0xA 5) t :=
  ⟨⟨_, cycle_of _ _ ⟨rfl, 0xF015, rfl, rfl⟩ rfl rfl⟩, ⟨_, cycle_of _ _ ⟨rfl, 0xF018, rfl, rfl⟩ rfl rfl⟩,
    ⟨_, cycle_of _ _ ⟨rfl, 0x6A05, rfl, rfl⟩ rfl rfl⟩⟩
theorem witness_ReadDelayTimer : ∃ t, Cycle { start 0xF107 with dt := 0xFF } (.ldVxDt 1) t :=
  ⟨_, cycle_of _ _ ⟨rfl, 0xF107, rfl, rfl⟩ rfl rfl⟩
/-- The delay timer runs out during this run of two cycles (L1.8). -/
theorem witness_DelayTimerCountsCycles : ∃ t, SafeRun (fun i => ∀ x, i ≠ .ldDtVx x) 2 { start 0x6A05 with dt := 1 } t :=
  ⟨_, _, _, cycle_of _ (.ldImm 0xA 5) ⟨rfl, 0x6A05, rfl, rfl⟩ rfl rfl, fun _ h => (by cases h),
    _, _, cycle_of _ (.cls 0) ⟨rfl, 0x0000, rfl, rfl⟩ rfl rfl, fun _ h => (by cases h), rfl, rfl⟩

/-- Every clause: an instruction that writes the element. -/
theorem witness_OnlyTheNamedInstructionsWrite :
    (∃ t, Completes (.ldI 1) State.reset t ∧ t.i ≠ State.reset.i) ∧
    (∃ t, Completes (.call 0) State.reset t ∧ t.sp ≠ State.reset.sp ∧ t.stack ≠ State.reset.stack) ∧
    (∃ t, Completes (.ldDtVx 0) (State.reset.writeV 0 1) t ∧ t.dt ≠ State.reset.dt) ∧
    (∃ t, Completes (.ldStVx 0) (State.reset.writeV 0 1) t ∧ t.st ≠ State.reset.st) ∧
    (∃ t, Completes (.ldMemVx 0) (State.reset.writeV 0 1) t ∧ t.mem ≠ State.reset.mem) ∧
    (∃ t, Completes (.drw 0 0 1) { State.reset with i := 0x50 } t ∧ t.pixel 0 0 ≠ State.reset.pixel 0 0) ∧
    (∃ t, Completes (.rnd 0 0) State.reset t ∧ t.rand.draws ≠ State.reset.rand.draws) :=
  ⟨⟨run (.ldI 1) State.reset, ⟨rfl, rfl⟩, by decide⟩,
    ⟨run (.call 0) State.reset, ⟨rfl, rfl⟩, by decide, by decide⟩,
    ⟨run (.ldDtVx 0) (State.reset.writeV 0 1), ⟨rfl, rfl⟩, by decide⟩,
    ⟨run (.ldStVx 0) (State.reset.writeV 0 1), ⟨rfl, rfl⟩, by decide⟩,
    ⟨run (.ldMemVx 0) (State.reset.writeV 0 1), ⟨rfl, rfl⟩, by decide⟩,
    ⟨run (.drw 0 0 1) { State.reset with i := 0x50 }, ⟨rfl, rfl⟩, by decide⟩,
    ⟨run (.rnd 0 0) State.reset, ⟨rfl, rfl⟩, by decide⟩⟩
theorem witness_WhoMayChangeVF :
    (∃ t, Completes (.ldImm regF 1) State.reset t ∧ t.readV regF ≠ State.reset.readV regF) ∧
    (∃ t, Completes (.ldVxMem regF) { State.reset with i := 0x51 - 0x10 } t ∧ t.readV regF ≠ State.reset.readV regF) ∧
    (∃ t, Completes (.addReg 0 0) (State.reset.writeV 0 0x80) t ∧ t.readV regF ≠ State.reset.readV regF) :=
  ⟨⟨run (.ldImm regF 1) State.reset, ⟨rfl, rfl⟩, by decide⟩,
    ⟨run (.ldVxMem regF) { State.reset with i := 0x51 - 0x10 }, ⟨rfl, rfl⟩, by decide⟩,
    ⟨run (.addReg 0 0) (State.reset.writeV 0 0x80), ⟨rfl, rfl⟩, by decide⟩⟩
/-- RET with one entry held; the other stack differs in the free slot 1. -/
theorem witness_FreeStackSlotsAreUnobservable :
    let s : State := { start 0x00EE with sp := 1 }
    let other : CallStack := s.stack.set 1 0x123
    s.sp.toNat ≤ 16 ∧ (∀ j : Fin 16, j.val < s.sp.toNat → other[j] = s.stack[j]) ∧ (∃ t, step s = .next t) ∧
      other[1] ≠ s.stack[1] := ⟨by decide, by decide, ⟨_, rfl⟩, by decide⟩

/-- CALL with 0, 15 and 16 entries held; RET with 1, 16 and 0; both with 17. -/
theorem witness_stack_clauses : State.reset.sp.toNat = (0 : Fin 16).val ∧
    ({ State.reset with sp := 15 } : State).sp.toNat = (15 : Fin 16).val ∧
    ({ State.reset with sp := 16 } : State).sp.toNat = 16 ∧
    ({ State.reset with sp := 1 } : State).sp.toNat = (0 : Fin 16).val + 1 ∧
    ({ State.reset with sp := 16 } : State).sp.toNat = (15 : Fin 16).val + 1 ∧
    16 < ({ State.reset with sp := 17 } : State).sp.toNat := by decide
theorem witness_ReturnAfterCall : ({ State.reset with sp := 14 } : State).sp.toNat < 15 ∧
    ∃ t, Completes (.call 0x300) { State.reset with sp := 14 } t := ⟨by decide, _, rfl, rfl⟩
/-- The clauses of the five flag instructions: a destination other than VF, and VF. -/
theorem witness_flag_clauses : (0 : Reg) ≠ regF ∧ (15 : Reg) = regF := by decide
theorem witness_RandomByteIsMasked : (State.reset.injectRand [0xA7]).rand.injected = 0xA7 :: [] ∧
    State.reset.rand.injected = [] := ⟨rfl, rfl⟩
/-- A draw whose last row is at 0xFFF; one that draws nothing; one that wraps. -/
theorem witness_DrawXorsTheSprite : State.dataInRange { State.reset with i := 0xFF1 } (0xF : Nibble).toNat ∧
    State.dataInRange { State.reset with i := 0xFFFF } (0 : Nibble).toNat ∧
    State.dataInRange (withParams { State.reset with i := 0xFFFF } fun p => { p with memOob := .wrap })
      (0xF : Nibble).toNat := ⟨.inr (.inl (by decide)), .inr (.inr rfl), .inl rfl⟩
/-- A display with every pixel on, and I at the glyph of 0. -/
def allOn : State := { State.reset with i := 0x50, disp := Vector.replicate 32 (Vector.replicate 64 true) }
theorem allOn_pixel (px : Fin 64) (py : Fin 32) : allOn.pixel px py = true := by simp [allOn, State.pixel]

/-- Inner hypotheses of both drawing statements, with the glyph of 0: on a clear display, a covered pixel, off, and a
nonzero sprite byte; on a full display, a covered pixel, and every covered pixel on. -/
theorem witness_DrawTwiceRestores : (0 : Reg) ≠ regF ∧ (1 : Reg) ≠ regF ∧
    State.dataInRange { State.reset with i := 0x50 } (1 : Nibble).toNat ∧
    State.covered { State.reset with i := 0x50 } 0 0 1 0 0 ∧ (∀ px py, State.reset.pixel px py = false) ∧
    State.reset.readByte ((0x50 + 0) % 0x1000) ≠ 0 ∧
    allOn.dataInRange (1 : Nibble).toNat ∧ allOn.covered (allOn.readV 0) (allOn.readV 1) 1 0 0 ∧
    (∀ px py, allOn.covered (allOn.readV 0) (allOn.readV 1) 1 px py → allOn.pixel px py = true) :=
  ⟨by decide, by decide, .inr (.inl (by decide)),
    ⟨0, by decide, 0, by decide, by decide, by decide, by decide⟩,
    by decide, by decide, .inr (.inl (by decide)),
    ⟨0, by decide, 0, by decide, by decide, by decide, by decide⟩, fun px py _ => allOn_pixel px py⟩
/-- Key index F; the same reduced from FF under MASK; and the lowest value out of range. -/
theorem witness_SkipOnKey : ((State.reset.writeV 5 0xF).readV 5).toNat = (15 : Fin 16).val ∧
    (withParams State.reset fun p => { p with keyOob := .mask }).params.keyOob = .mask ∧
    ((State.reset.writeV 5 0xFF).readV 5).toNat % 16 = (15 : Fin 16).val ∧ State.reset.params.keyOob = .fault ∧
    0xF < ((State.reset.writeV 5 0x10).readV 5).toNat := by decide
/-- The lowest pressed key may be the first or the last; none may be pressed. -/
theorem witness_WaitForKey : (State.reset.setKey 15 true).keys[15] = true ∧
    (∀ j : Fin 16, j < 15 → (State.reset.setKey 15 true).keys[j] = false) ∧
    (State.reset.setKey 0 true).keys[0] = true ∧ (∀ k : Fin 16, State.reset.keys[k] = false) := by decide
theorem witness_KeyWaitRepeats : (start 0xF30A).Executes (.ldVxK 3) ∧ ∀ j : Fin 16, (start 0xF30A).keys[j] = false :=
  ⟨⟨rfl, 0xF30A, rfl, rfl⟩, by decide⟩
/-- The memory transfers, up to the last byte of memory and wrapping past it. -/
theorem witness_transfers : Memory.wf State.reset.params.fontTable State.reset.mem = true ∧
    State.dataInRange { State.reset with i := 0xFFD } 3 ∧ State.dataInRange { State.reset with i := 0xFF0 } (15 + 1) ∧
    State.dataInRange (withParams { State.reset with i := 0xFFF } fun p => { p with memOob := .wrap }) (15 + 1) :=
  ⟨rfl, .inr (.inl (by decide)), .inr (.inl (by decide)), .inl rfl⟩
/-- Every clause, at the lowest I that faults. -/
theorem witness_DataAddressFaults : State.reset.params.memOob = .fault ∧ (1 : Nibble) ≠ 0 ∧
    0x1000 < ({ State.reset with i := 0x1000 } : State).i.toNat + (1 : Nibble).toNat ∧
    0x1000 < ({ State.reset with i := 0xFFE } : State).i.toNat + 3 ∧
    0x1000 < ({ State.reset with i := 0xFF1 } : State).i.toNat + ((15 : Reg).val + 1) := by decide
/-- The store that LoadAfterStore and StoredBytesAreFetched start from; the last two registers, fetched at 0xFFE. -/
theorem witness_store_then_read : Memory.wf State.reset.params.fontTable State.reset.mem = true ∧
    State.dataInRange { State.reset with i := 0xFF0 } ((15 : Reg).val + 1) ∧
    (∃ t, Completes (.ldMemVx 15) { State.reset with i := 0xFF0, v := counted } t) ∧ (14 : Reg) < 15 ∧
    ({ State.reset with pc := 0xFFE } : State).pc.toNat =
      ({ State.reset with i := 0xFF0 } : State).i.toNat + (14 : Reg).val ∧
    ({ State.reset with pc := 0xFFE } : State).pc.toNat + 1 ≤ 0xFFF :=
  ⟨rfl, .inr (.inl (by decide)), ⟨_, rfl, rfl⟩, by decide, by decide, by decide⟩
/-- Programs of 0 and 3584 bytes are loaded, one of 3585 is not (B1, B2). -/
theorem witness_boot : ([] : List Byte).length ≤ 3584 ∧ (List.replicate 3584 (0 : Byte)).length ≤ 3584 ∧
    3584 < (List.replicate 3585 (0 : Byte)).length :=
  ⟨by decide, by rw [List.length_replicate], by rw [List.length_replicate]; decide⟩

end Sys2Proof.Tests
end

/-! The host's two ports (spec/00_scope.md R24, R25): what setting a key and injecting random bytes write, and that
nothing else changes. -/

namespace Sys2Proof.Machine

theorem State.keys_setKey_same (s : State) (k : Fin 16) (pressed : Bool) :
    (s.setKey k pressed).keys[k] = pressed := by
  rw [State.setKey_keys]
  exact Vector.getElem_set_self k.isLt

theorem State.keys_setKey_of_ne (s : State) {k j : Fin 16} (pressed : Bool) (hj : j ≠ k) :
    (s.setKey k pressed).keys[j] = s.keys[j] := by
  have hval : k.val ≠ j.val := fun h => hj (Fin.ext h.symm)
  rw [State.setKey_keys]
  exact Vector.getElem_set_ne k.isLt j.isLt hval

theorem setKey_unchangedBut_key (s : State) (k : Fin 16) (pressed : Bool) :
    UnchangedBut (fun e => e = .key k) s (s.setKey k pressed) := by
  intro e he
  cases e with
  | key j => exact s.keys_setKey_of_ne pressed fun hj => he (congrArg Elem.key hj)
  | _ => rfl

theorem injectRand_unchangedBut_rand (s : State) (bs : List Byte) :
    UnchangedBut (fun e => e = .rand) s (s.injectRand bs) := by
  intro e he
  cases e with
  | rand => exact absurd rfl he
  | _ => rfl

/-- Settles O59: the read-after-write law of the keypad, the record's own append for the RAND port (log 3), and one
frame lemma per port. -/
theorem hostPorts : Obligations.HostPorts := by
  intro s k pressed bs
  have hinjected : (s.injectRand bs).rand.injected = s.rand.injected ++ bs := by
    rw [State.injectRand_rand]
  exact ⟨s.keys_setKey_same k pressed, setKey_unchangedBut_key s k pressed, hinjected,
    injectRand_unchangedBut_rand s bs⟩

end Sys2Proof.Machine

/-! The power-on state (spec/10_state.md R32 to R49): the reset value of every element, and that it is legal. -/

namespace Sys2Proof.Machine

@[simp] theorem State.powerOn_readV (p : Params) (x : Reg) : (State.powerOn p).readV x = 0 :=
  Vector.getElem_replicate x.isLt

@[simp] theorem State.powerOn_slot (p : Params) (j : Fin 16) : (State.powerOn p).stack[j] = 0 :=
  Vector.getElem_replicate j.isLt

@[simp] theorem State.powerOn_key (p : Params) (k : Fin 16) : (State.powerOn p).keys[k] = false :=
  Vector.getElem_replicate k.isLt

@[simp] theorem State.powerOn_pixel (p : Params) (x : Fin 64) (y : Fin 32) :
    (State.powerOn p).pixel x y = false :=
  (State.powerOn p).clearDisplay_pixel x y

theorem State.powerOn_readByte (p : Params) (a : Nat) :
    (State.powerOn p).readByte a = Memory.unlisted p.fontTable a := rfl

theorem State.powerOn_legal (p : Params) : (State.powerOn p).Legal where
  sp_le := Nat.zero_le 16
  mem_wf := State.powerOn_mem_wf p
  record_ok := fun _ hr => nomatch hr

/-- Settles O15: reset is the power-on state under the default parameters. -/
theorem powerOnIsLegal : Obligations.PowerOnIsLegal :=
  ⟨State.powerOn_legal Config.defaultParams, State.powerOn_legal⟩

/-- Settles O55: registers, stack and display by their power-on lemmas, the scalar fields as they are written. -/
theorem resetValues : Obligations.ResetValues := fun p =>
  ⟨State.powerOn_readV p, rfl, rfl, rfl, State.powerOn_slot p, rfl, rfl, State.powerOn_pixel p⟩

/-- Settles O56: the empty memory list reads as unlisted everywhere, which is the font and zero around it (R44). -/
theorem resetMemoryAndPorts : Obligations.ResetMemoryAndPorts := by
  intro p s
  have hfont (j : Fin 80) : s.readByte (0x050 + j.val) = p.fontTable[j] := by
    rw [State.powerOn_readByte, Memory.unlisted_font]
  have hzero (a : Nat) (ha : a < 0x050 ∨ 0x0A0 ≤ a) : s.readByte a = 0 := by
    rw [State.powerOn_readByte, Memory.unlisted_outside p.fontTable a ha]
  exact ⟨hfont, hzero, State.powerOn_key p, rfl, rfl, rfl⟩

end Sys2Proof.Machine

/-! The legal states are an invariant of the strobe (spec/10_state.md R37, R48; spec/60_exceptions.md R231, R234). -/

namespace Sys2Proof.Machine

/-- A fault taken with a record R231 allows: nothing but the record changes. -/
theorem State.Legal.withRecord {s : State} (hs : s.Legal) {r : FaultRecord} (hpc : r.pc = s.pc) (hr : r.shaped) :
    State.Legal { s with fault := some r } where
  sp_le := hs.sp_le
  mem_wf := hs.mem_wf
  record_ok := by
    rintro _ ⟨⟩
    exact ⟨hr, hpc⟩

/-- A completed cycle: the handler keeps the bound on SP and the form of memory, and the tick writes neither. -/
theorem State.Legal.tick_of_exec {s u : State} {i : Instr} (hs : s.Legal) (he : exec i s.advance = .next u)
    (hu : u.fault = none) : u.tick.Legal where
  sp_le := exec_sp_le i s.advance u hs.sp_le he
  mem_wf := exec_mem_wf i s.advance u hs.mem_wf he
  record_ok := by
    intro r hr
    rw [State.tick_fault, hu] at hr
    cases hr

/-- Settles O14: one case for each thing a strobe can have done (`step_next`). -/
theorem stepKeepsLegal : Obligations.StepKeepsLegal := by
  intro s t hs hstep
  obtain ⟨-, rfl⟩ | ⟨-, r, rfl, hpc, hr⟩ | ⟨i, u, -, he, hu, rfl⟩ := step_next s t hstep
  · exact hs
  · exact hs.withRecord hpc hr
  · exact hs.tick_of_exec he hu

end Sys2Proof.Machine

/-! Who writes what: the elements a handler that does not raise can write, said once over all instructions
(spec/10_state.md R31, R33, R38, R40, R47). -/

namespace Sys2Proof.Machine

/-- `t` is `s` but for the elements the instruction `i` is there to write, whatever the values it gives them. -/
def WritesOnlyItsOwn (i : Instr) (s t : State) : Prop :=
  match i with
  | .cls _ => t = s.clearDisplay
  | .ret _ => ∃ a, t = s.popped.setPc a
  | .call _ => ∃ j a, t = (s.pushAt j s.pc).setPc a
  | .jp _ | .jpV0 _ | .seImm _ _ | .sneImm _ _ | .seReg _ _ _ | .sneReg _ _ _ | .skp _ _ | .sknp _ _ =>
    ∃ a, t = s.setPc a
  | .ldImm x _ | .addImm x _ | .ldReg x _ | .orReg x _ | .andReg x _ | .xorReg x _ | .ldVxDt x =>
    ∃ b, t = s.writeV x b
  | .addReg x _ | .sub x _ | .shr x _ | .subn x _ | .shl x _ => ∃ f r again, t = s.writeFlagResult x f r again
  | .ldI _ | .addI _ | .ldF _ => ∃ a, t = s.setI a
  | .rnd x _ => ∃ b, t = s.consumeRand.writeV x b
  | .drw _ _ _ => ∃ ps b, t = (s.drawPixels ps).1.writeV regF b
  | .ldVxK x => (∃ b, t = s.writeV x b) ∨ t = s.rewind
  | .ldDtVx _ => ∃ b, t = s.setDt b
  | .ldStVx _ => ∃ b, t = s.setSt b
  | .ldB _ | .ldMemVx _ => ∃ cells, t = s.writeBytes cells
  | .ldVxMem x => ∃ cells : List (Reg × Byte), (∀ c ∈ cells, c.1 ≤ x) ∧ t = s.writeVs cells

/-- A handler that answers a next state has raised, or has written only what its instruction is there to write. -/
theorem exec_writesOnlyItsOwn (i : Instr) (s t : State) (h : exec i s = .next t) :
    (∃ kind addr, t = s.raise kind i addr) ∨ WritesOnlyItsOwn i s t := by
  cases i with
  | cls _ => cases h; exact .inr rfl
  | jp _ | jpV0 _ => cases h; exact .inr ⟨_, rfl⟩
  | seImm _ _ | sneImm _ _ | seReg _ _ _ | sneReg _ _ _ => cases h; exact .inr ⟨_, s.skipIf_eq _⟩
  | ldImm _ _ | addImm _ _ | ldReg _ _ | orReg _ _ | andReg _ _ | xorReg _ _ | ldVxDt _ =>
    cases h; exact .inr ⟨_, rfl⟩
  | addReg _ _ | sub _ _ | shr _ _ | subn _ _ | shl _ _ => cases h; exact .inr ⟨_, _, _, rfl⟩
  | ldI _ | addI _ | ldF _ | rnd _ _ | ldDtVx _ | ldStVx _ => cases h; exact .inr ⟨_, rfl⟩
  | call nnn =>
    simp only [exec, execCall] at h
    split at h
    · cases h; exact .inl ⟨_, _, rfl⟩
    · split at h
      · cases h; exact .inr ⟨_, _, rfl⟩
      · cases h
  | ret xy =>
    simp only [exec, execRet] at h
    split at h
    · cases h; exact .inl ⟨_, _, rfl⟩
    · split at h
      · cases h; exact .inr ⟨_, rfl⟩
      · cases h
  | drw _ _ n =>
    simp only [exec, execDrw] at h
    split at h <;> cases h
    · exact .inl ⟨_, _, rfl⟩
    · exact .inr ⟨_, _, rfl⟩
  | skp _ _ | sknp _ _ =>
    simp only [exec, execSkp, execSknp] at h
    split at h <;> cases h
    · exact .inl ⟨_, _, rfl⟩
    · exact .inr ⟨_, s.skipIf_eq _⟩
  | ldVxK _ =>
    simp only [exec, execLdVxK] at h
    split at h <;> cases h
    · exact .inr (.inl ⟨_, rfl⟩)
    · exact .inr (.inr rfl)
  | ldB _ | ldMemVx _ =>
    simp only [exec, execLdB, execLdMemVx] at h
    split at h <;> cases h
    · exact .inl ⟨_, _, rfl⟩
    · exact .inr ⟨_, rfl⟩
  | ldVxMem x =>
    simp only [exec, execLdVxMem] at h
    split at h <;> cases h
    · exact .inl ⟨_, _, rfl⟩
    · exact .inr ⟨_, fun c hc => (mem_regsUpTo x c.1).mp (List.of_mem_zip hc).1, rfl⟩

/-- Settles O20: a raise writes the record and PC alone; else by the elements each kind of instruction writes. -/
theorem onlyTheNamedInstructionsWrite : Obligations.OnlyTheNamedInstructionsWrite := by
  rintro i s t ⟨h, -⟩
  obtain ⟨kind, addr, rfl⟩ | hw := exec_writesOnlyItsOwn i s t h
  · simp [State.raise]
  cases i with
  | cls _ => obtain rfl := hw; simp
  | ret _ => obtain ⟨a, rfl⟩ := hw; simp
  | call _ => obtain ⟨j, a, rfl⟩ := hw; simp
  | jp _ | jpV0 _ | seImm _ _ | sneImm _ _ | seReg _ _ _ | sneReg _ _ _ | skp _ _ | sknp _ _ =>
    obtain ⟨a, rfl⟩ := hw; simp
  | ldImm _ _ | addImm _ _ | ldReg _ _ | orReg _ _ | andReg _ _ | xorReg _ _ | ldVxDt _ =>
    obtain ⟨b, rfl⟩ := hw; simp
  | addReg _ _ | sub _ _ | shr _ _ | subn _ _ | shl _ _ => obtain ⟨f, r, again, rfl⟩ := hw; simp
  | ldI _ | addI _ | ldF _ => obtain ⟨a, rfl⟩ := hw; simp
  | rnd _ _ => obtain ⟨b, rfl⟩ := hw; simp
  | drw _ _ _ => obtain ⟨ps, b, rfl⟩ := hw; simp
  | ldVxK _ => obtain ⟨b, rfl⟩ | rfl := hw <;> simp
  | ldDtVx _ | ldStVx _ => obtain ⟨b, rfl⟩ := hw; simp
  | ldB _ | ldMemVx _ => obtain ⟨cells, rfl⟩ := hw; simp
  | ldVxMem _ => obtain ⟨cells, -, rfl⟩ := hw; simp

/-- A register write that changes VF is a write to VF. -/
theorem State.eq_regF_of_writeV_changes {s : State} {x : Reg} {b : Byte}
    (h : (s.writeV x b).readV regF ≠ s.readV regF) : x = regF := by
  by_contra hx
  rw [State.writeV_readV, if_neg (Ne.symm hx)] at h
  exact h rfl

/-- Loads of registers up to `x` that change VF reach VF. -/
theorem State.eq_regF_of_writeVs_changes {s : State} {x : Reg} {cells : List (Reg × Byte)}
    (hle : ∀ c ∈ cells, c.1 ≤ x) (h : (s.writeVs cells).readV regF ≠ s.readV regF) : x = regF := by
  by_contra hx
  have hlt : x < regF := lt_of_le_of_ne (Fin.le_last x) hx
  exact h (s.writeVs_readV_of_notMem cells regF fun c hc => ne_of_lt (lt_of_le_of_lt (hle c hc) hlt))

/-- Settles O21: a handler that raises or writes no register leaves VF; one that writes Vx changes VF only if x is F. -/
theorem whoMayChangeVF : Obligations.WhoMayChangeVF := by
  rintro i s t ⟨h, -⟩ hv
  obtain ⟨kind, addr, rfl⟩ | hw := exec_writesOnlyItsOwn i s t h
  · exact absurd rfl hv
  cases i with
  | addReg _ _ | sub _ _ | shr _ _ | subn _ _ | shl _ _ | drw _ _ _ => trivial
  | ldImm _ _ | addImm _ _ | ldReg _ _ | orReg _ _ | andReg _ _ | xorReg _ _ | ldVxDt _ =>
    obtain ⟨b, rfl⟩ := hw
    exact State.eq_regF_of_writeV_changes hv
  | rnd _ _ =>
    obtain ⟨b, rfl⟩ := hw
    exact State.eq_regF_of_writeV_changes (s := s.consumeRand) hv
  | ldVxK _ =>
    obtain ⟨b, rfl⟩ | rfl := hw
    · exact State.eq_regF_of_writeV_changes hv
    · exact absurd rfl hv
  | ldVxMem _ =>
    obtain ⟨cells, hle, rfl⟩ := hw
    exact State.eq_regF_of_writeVs_changes hle hv
  | cls _ => obtain rfl := hw; exact hv rfl
  | ret _ | jp _ | jpV0 _ | seImm _ _ | sneImm _ _ | seReg _ _ _ | sneReg _ _ _ | skp _ _ | sknp _ _ =>
    obtain ⟨a, rfl⟩ := hw
    exact hv rfl
  | call _ => obtain ⟨j, a, rfl⟩ := hw; exact hv rfl
  | ldI _ | addI _ | ldF _ | ldDtVx _ | ldStVx _ => obtain ⟨a, rfl⟩ := hw; exact hv rfl
  | ldB _ | ldMemVx _ => obtain ⟨cells, rfl⟩ := hw; exact hv (s.writeBytes_readV cells regF)

end Sys2Proof.Machine

/-! CALL and RET by the value of SP (spec/41_control_flow.md R111, R112; log 4): one equation per case. -/

namespace Sys2Proof.Machine

theorem exec_call_of_lt (nnn : Addr12) (s : State) (h : s.sp.toNat < 16) :
    exec (.call nnn) s = .next ((s.pushAt ⟨s.sp.toNat, h⟩ s.pc).setPc (zextAddr nnn)) :=
  (if_neg h.ne).trans (dif_pos h)

theorem exec_call_of_full (nnn : Addr12) (s : State) (h : s.sp.toNat = 16) :
    exec (.call nnn) s = .next (s.raise .stackOverflow (.call nnn) none) :=
  if_pos h

theorem exec_call_of_gt (nnn : Addr12) (s : State) (h : 16 < s.sp.toNat) :
    exec (.call nnn) s = .fault (.stackPointerOutOfRange s.sp) :=
  (if_neg h.ne').trans (dif_neg h.not_gt)

theorem exec_ret_of_empty (xy : Byte) (s : State) (h : s.sp.toNat = 0) :
    exec (.ret xy) s = .next (s.raise .stackUnderflow (.ret xy) none) :=
  if_pos h

theorem exec_ret_of_le (xy : Byte) (s : State) (hne : s.sp.toNat ≠ 0) (h : s.sp.toNat - 1 < 16) :
    exec (.ret xy) s = .next (s.popped.setPc s.stack[s.sp.toNat - 1]) :=
  (if_neg hne).trans (dif_pos h)

theorem exec_ret_of_gt (xy : Byte) (s : State) (h : 16 < s.sp.toNat) :
    exec (.ret xy) s = .fault (.stackPointerOutOfRange s.sp) :=
  (if_neg (by omega)).trans (dif_neg (by omega))

end Sys2Proof.Machine

/-! The paths of a strobe that do not execute, and the end of a cycle (spec/30_encoding.md R95;
spec/60_exceptions.md R234, R240): one equation per case. -/

namespace Sys2Proof.Machine

theorem step_of_fetch_error (s : State) (a : Nat) (hf : s.fault = none) (ho : s.fetch = .error a) :
    step s = .next (s.fetchFault a) := by
  simp [step, State.halted, hf, ho]

theorem step_of_decode_error (s : State) (op : Word) (e : DecodeError) (hf : s.fault = none)
    (ho : s.fetch = .ok op) (hd : decode s.params.decodeMode op = .error e) :
    step s = .next (s.unknownOpcodeFault op) := by
  simp [step, State.halted, hf, ho, hd]

theorem finishCycle_of_fault (u : State) (r : FaultRecord) (h : u.fault = some r) :
    finishCycle (.next u) = .next u := by
  simp [finishCycle, State.halted, h]

theorem finishCycle_of_no_fault (u : State) (h : u.fault = none) : finishCycle (.next u) = .next u.tick := by
  simp [finishCycle, State.halted, h]

/-- The end of a cycle answers a next state only after a handler that did. -/
theorem next_of_finishCycle {o : Host.Outcome State Fault Refusal} {t : State} (h : finishCycle o = .next t) :
    ∃ u, o = .next u := by
  cases o with
  | next u => exact ⟨u, rfl⟩
  | fault f => cases h
  | refused r => cases h

end Sys2Proof.Machine

/-! Stack entries at SP and above are not observable (spec/10_state.md R38): a handler commutes with exchanging them. -/

namespace Sys2Proof.Machine

/-- `s` with another call stack. -/
def State.withStack (s : State) (σ : CallStack) : State := { s with stack := σ }

/-- `σ` holds the entries that `s` holds below SP. -/
def State.HoldsBelowSp (s : State) (σ : CallStack) : Prop := ∀ j : Fin 16, j.val < s.sp.toNat → σ[j] = s.stack[j]

/-- Exchanging the stack by one with the same entries below SP leaves the outcome `t` as it is, but for such an
exchange. -/
def AnswersUpToFreeSlots (run : State → Host.Outcome State Fault Refusal) (s : State) (σ : CallStack) (t : State) :
    Prop :=
  ∃ τ : CallStack, t.HoldsBelowSp τ ∧ run (s.withStack σ) = .next (t.withStack τ)

@[simp] theorem State.withStack_params (s : State) (σ : CallStack) : (s.withStack σ).params = s.params := rfl
@[simp] theorem State.withStack_keys (s : State) (σ : CallStack) : (s.withStack σ).keys = s.keys := rfl
@[simp] theorem State.withStack_readV (s : State) (σ : CallStack) (x : Reg) :
    (s.withStack σ).readV x = s.readV x := rfl
@[simp] theorem State.withStack_checkedAddrs (s : State) (σ : CallStack) (n : Nat) :
    (s.withStack σ).checkedAddrs n = s.checkedAddrs n := rfl

/-! ## The operations that loop or branch, with another stack -/

theorem State.skipIf_withStack (s : State) (σ : CallStack) (c : Bool) :
    (s.withStack σ).skipIf c = (s.skipIf c).withStack σ := by
  cases c <;> rfl

theorem State.writeFlagResult_withStack (s : State) (σ : CallStack) (x : Reg) (f : Bool) (r : Byte)
    (again : State → Byte) (hagain : ∀ u : State, again (u.withStack σ) = again u) :
    (s.withStack σ).writeFlagResult x f r again = (s.writeFlagResult x f r again).withStack σ := by
  have hval := hagain (s.writeV regF (flagByte f))
  simp only [State.writeFlagResult, State.withStack_params]
  cases s.params.vfAliasOrder with
  | resultLast => rfl
  | flagLast => rfl
  | sequential => exact congrArg (fun b => ((s.writeV regF (flagByte f)).withStack σ).writeV x b) hval

theorem State.writeBytes_withStack (s : State) (σ : CallStack) (cells : List (Nat × Byte)) :
    (s.withStack σ).writeBytes cells = (s.writeBytes cells).withStack σ := by
  induction cells generalizing s with
  | nil => rfl
  | cons c cells ih => exact ih (s.writeByte c.1 c.2)

theorem State.writeVs_withStack (s : State) (σ : CallStack) (cells : List (Reg × Byte)) :
    (s.withStack σ).writeVs cells = (s.writeVs cells).withStack σ := by
  induction cells generalizing s with
  | nil => rfl
  | cons c cells ih => exact ih (s.writeV c.1 c.2)

/-- The pixels drawn and the collision flag are those drawn with the other stack. -/
theorem State.drawPixels_fold_withStack (c : State × Bool) (σ : CallStack) (ps : List (Fin 64 × Fin 32)) :
    ps.foldl State.drawPixel (c.1.withStack σ, c.2) =
      ((ps.foldl State.drawPixel c).1.withStack σ, (ps.foldl State.drawPixel c).2) := by
  induction ps generalizing c with
  | nil => rfl
  | cons p ps ih => exact ih (State.drawPixel c p)

theorem State.drawPixels_withStack (s : State) (σ : CallStack) (ps : List (Fin 64 × Fin 32)) :
    (s.withStack σ).drawPixels ps = ((s.drawPixels ps).1.withStack σ, (s.drawPixels ps).2) :=
  State.drawPixels_fold_withStack (s, false) σ ps

/-! ## The handlers -/

/-- A handler other than CALL and RET neither reads nor writes the stack. -/
theorem exec_withStack (i : Instr) (s t : State) (σ : CallStack) (hcall : ∀ nnn, i ≠ .call nnn)
    (hret : ∀ xy, i ≠ .ret xy) (h : exec i s = .next t) :
    exec i (s.withStack σ) = .next (t.withStack σ) := by
  cases i with
  | call nnn => exact absurd rfl (hcall nnn)
  | ret xy => exact absurd rfl (hret xy)
  | cls _ | jp _ | ldImm _ _ | addImm _ _ | ldReg _ _ | orReg _ _ | andReg _ _ | xorReg _ _ | ldI _ | jpV0 _
  | rnd _ _ | ldVxDt _ | ldDtVx _ | ldStVx _ | addI _ | ldF _ => cases h; rfl
  | seImm _ _ | sneImm _ _ | seReg _ _ _ | sneReg _ _ _ =>
    cases h; exact congrArg _ (s.skipIf_withStack σ _)
  | addReg _ _ | sub _ _ | shr _ _ | subn _ _ | shl _ _ =>
    cases h; exact congrArg _ (s.writeFlagResult_withStack σ _ _ _ _ fun _ => rfl)
  | skp _ _ | sknp _ _ =>
    simp only [exec, execSkp, execSknp, State.withStack_params, State.withStack_readV] at h ⊢
    split at h <;> cases h
    · rfl
    · exact congrArg _ (s.skipIf_withStack σ _)
  | ldVxK _ =>
    simp only [exec, execLdVxK, State.withStack_keys] at h ⊢
    split at h <;> cases h <;> rfl
  | drw _ _ _ =>
    simp only [exec, execDrw, State.withStack_checkedAddrs] at h ⊢
    split at h <;> cases h
    · rfl
    · exact congrArg (fun d : State × Bool => Host.Outcome.next (d.1.writeV regF (flagByte d.2)))
        (s.drawPixels_withStack σ _)
  | ldB _ | ldMemVx _ =>
    simp only [exec, execLdB, execLdMemVx, State.withStack_checkedAddrs] at h ⊢
    split at h <;> cases h
    · rfl
    · exact congrArg _ (s.writeBytes_withStack σ _)
  | ldVxMem _ =>
    simp only [exec, execLdVxMem, State.withStack_checkedAddrs] at h ⊢
    split at h <;> cases h
    · rfl
    · exact congrArg _ (s.writeVs_withStack σ _)

/-- A handler other than CALL and RET leaves the stack as it is. -/
theorem exec_keeps_stack (i : Instr) (s t : State) (hcall : ∀ nnn, i ≠ .call nnn) (hret : ∀ xy, i ≠ .ret xy)
    (h : exec i s = .next t) : t.sp = s.sp ∧ t.stack = s.stack := by
  obtain hfault | ⟨kind, addr, rfl, -⟩ := exec_next i s t h
  · obtain ⟨-, hstack, -⟩ := onlyTheNamedInstructionsWrite i s t ⟨h, hfault⟩
    by_contra hne
    obtain ⟨nnn, xy, rfl | rfl⟩ := hstack (not_and_or.mp hne)
    · exact hcall nnn rfl
    · exact hret xy rfl
  · exact ⟨rfl, rfl⟩

/-- After a push both stacks hold the return address in the slot that was free. -/
theorem State.HoldsBelowSp.pushAt {s : State} {σ : CallStack} (hσ : s.HoldsBelowSp σ) (j : Fin 16) (a : Word)
    (hj : j.val = s.sp.toNat) : (s.pushAt j a).HoldsBelowSp (σ.set j a) := by
  intro k hk
  have hsp : (s.sp + 1).toNat = s.sp.toNat + 1 := by
    have hle : s.sp.toNat < 16 := hj ▸ j.isLt
    rw [BitVec.toNat_add, show (1 : Byte).toNat = 1 from rfl]
    omega
  rw [State.pushAt_sp, hsp] at hk
  simp only [State.pushAt_stack, Fin.getElem_fin, Vector.getElem_set]
  split
  · rfl
  · exact hσ k (by omega)

/-- After a pop fewer entries count. -/
theorem State.HoldsBelowSp.popped {s : State} {σ : CallStack} (hσ : s.HoldsBelowSp σ) (hsp : s.sp.toNat ≠ 0) :
    s.popped.HoldsBelowSp σ := by
  intro k hk
  have hle : (s.sp - 1).toNat ≤ s.sp.toNat := by
    rw [BitVec.toNat_sub, show (1 : Byte).toNat = 1 from rfl]
    omega
  exact hσ k (lt_of_lt_of_le hk hle)

theorem call_upToFreeSlots (nnn : Addr12) (s t : State) (σ : CallStack) (hσ : s.HoldsBelowSp σ)
    (h : exec (.call nnn) s = .next t) : AnswersUpToFreeSlots (exec (.call nnn)) s σ t := by
  rcases lt_trichotomy s.sp.toNat 16 with hlt | hfull | habove
  · rw [exec_call_of_lt nnn s hlt] at h
    cases h
    exact ⟨σ.set s.sp.toNat s.pc, hσ.pushAt ⟨s.sp.toNat, hlt⟩ s.pc rfl, exec_call_of_lt nnn (s.withStack σ) hlt⟩
  · rw [exec_call_of_full nnn s hfull] at h
    cases h
    exact ⟨σ, hσ, exec_call_of_full nnn (s.withStack σ) hfull⟩
  · rw [exec_call_of_gt nnn s habove] at h
    cases h

theorem ret_upToFreeSlots (xy : Byte) (s t : State) (σ : CallStack) (hσ : s.HoldsBelowSp σ)
    (h : exec (.ret xy) s = .next t) : AnswersUpToFreeSlots (exec (.ret xy)) s σ t := by
  by_cases hempty : s.sp.toNat = 0
  · rw [exec_ret_of_empty xy s hempty] at h
    cases h
    exact ⟨σ, hσ, exec_ret_of_empty xy (s.withStack σ) hempty⟩
  by_cases hle : s.sp.toNat ≤ 16
  · have hlt : s.sp.toNat - 1 < 16 := by omega
    have htop : σ[s.sp.toNat - 1] = s.stack[s.sp.toNat - 1] :=
      hσ ⟨s.sp.toNat - 1, hlt⟩ (Nat.sub_one_lt hempty)
    rw [exec_ret_of_le xy s hempty hlt] at h
    cases h
    rw [← htop]
    exact ⟨σ, hσ.popped hempty, exec_ret_of_le xy (s.withStack σ) hempty hlt⟩
  · rw [exec_ret_of_gt xy s (not_le.mp hle)] at h
    cases h

/-- CALL writes a slot before it counts it and RET reads only a slot that counts; no other handler uses the stack. -/
theorem exec_upToFreeSlots (i : Instr) (s t : State) (σ : CallStack) (hσ : s.HoldsBelowSp σ)
    (h : exec i s = .next t) : AnswersUpToFreeSlots (exec i) s σ t := by
  by_cases hcall : ∃ nnn, i = .call nnn
  · obtain ⟨nnn, rfl⟩ := hcall
    exact call_upToFreeSlots nnn s t σ hσ h
  by_cases hret : ∃ xy, i = .ret xy
  · obtain ⟨xy, rfl⟩ := hret
    exact ret_upToFreeSlots xy s t σ hσ h
  rw [not_exists] at hcall hret
  obtain ⟨hsp, hstack⟩ := exec_keeps_stack i s t hcall hret h
  refine ⟨σ, ?_, exec_withStack i s t σ hcall hret h⟩
  intro j hj
  rw [hsp] at hj
  rw [hstack]
  exact hσ j hj

/-! ## The strobe -/

/-- The end of a cycle commutes with exchanging the stack, and keeps the stack and SP. -/
theorem finishCycle_upToFreeSlots (u t : State) (τ : CallStack) (hτ : u.HoldsBelowSp τ)
    (h : finishCycle (.next u) = .next t) :
    t.HoldsBelowSp τ ∧ finishCycle (.next (u.withStack τ)) = .next (t.withStack τ) := by
  cases hu : u.fault with
  | some r =>
    rw [finishCycle_of_fault u r hu] at h
    cases h
    exact ⟨hτ, finishCycle_of_fault (u.withStack τ) r hu⟩
  | none =>
    rw [finishCycle_of_no_fault u hu] at h
    cases h
    exact ⟨hτ, finishCycle_of_no_fault (u.withStack τ) hu⟩

/-- Every path through the cycle: halted, a failed fetch, a word with no handler, and a handler. -/
theorem step_upToFreeSlots (s t : State) (σ : CallStack) (hσ : s.HoldsBelowSp σ) (h : step s = .next t) :
    AnswersUpToFreeSlots step s σ t := by
  cases hf : s.fault with
  | some r =>
    rw [step_of_halted s r hf] at h
    cases h
    exact ⟨σ, hσ, step_of_halted (s.withStack σ) r hf⟩
  | none =>
    cases ho : s.fetch with
    | error a =>
      rw [step_of_fetch_error s a hf ho] at h
      cases h
      exact ⟨σ, hσ, step_of_fetch_error (s.withStack σ) a hf ho⟩
    | ok op =>
      cases hd : decode s.params.decodeMode op with
      | error e =>
        rw [step_of_decode_error s op e hf ho hd] at h
        cases h
        exact ⟨σ, hσ, step_of_decode_error (s.withStack σ) op e hf ho hd⟩
      | ok i =>
        rw [step_of_executes s i ⟨hf, op, ho, hd⟩] at h
        obtain ⟨u, he⟩ := next_of_finishCycle h
        obtain ⟨τ, hτ, he'⟩ := exec_upToFreeSlots i s.advance u σ hσ he
        rw [he] at h
        obtain ⟨ht, hfin⟩ := finishCycle_upToFreeSlots u t τ hτ h
        refine ⟨τ, ht, ?_⟩
        rw [step_of_executes (s.withStack σ) i ⟨hf, op, ho, hd⟩]
        exact (congrArg finishCycle he').trans hfin

/-- Settles O22: `withStack` is the exchange of the statement; the bound on SP is not needed, CALL and RET answering no
next state above it. -/
theorem freeStackSlotsAreUnobservable : Obligations.FreeStackSlotsAreUnobservable :=
  fun s t other _ hother h => step_upToFreeSlots s t other hother h

end Sys2Proof.Machine

/-! The fetch by the address of its two bytes (spec/20_memory.md R62, R63; spec/30_encoding.md R96). -/

namespace Sys2Proof.Machine

theorem check_ok (o : MemOob) (a : Nat) (h : o = .wrap ∨ a < 0x1000) : check o a = .ok (a % 0x1000) := by
  obtain rfl | ha := h
  · exact check_wrap a
  · rw [check_of_lt o a ha, Nat.mod_eq_of_lt ha]

/-- A fetch whose two addresses pass the check gives the word of the two bytes there, the lower address high. -/
theorem State.fetch_bigEndian (s : State) (h : s.params.memOob = .wrap ∨ s.pc.toNat + 1 ≤ 0xFFF) :
    ∃ op, s.fetch = .ok op ∧
      op.toNat = 0x100 * (s.readByte (s.pc.toNat % 0x1000)).toNat +
        (s.readByte ((s.pc.toNat + 1) % 0x1000)).toNat := by
  have hhi := check_ok s.params.memOob s.pc.toNat (h.imp_right fun hpc => by omega)
  have hlo := check_ok s.params.memOob (s.pc.toNat + 1) (h.imp_right fun hpc => by omega)
  exact ⟨_, by simp only [State.fetch, hhi, hlo], wordOfBytes_toNat _ _⟩

/-- Under FAULT a fetch that leaves memory names its lowest address outside: PC, or 0x1000 when PC itself is inside. -/
theorem State.fetch_error (s : State) (ho : s.params.memOob = .fault) (hpc : 0xFFF ≤ s.pc.toNat) :
    s.fetch = .error (max 0x1000 s.pc.toNat) := by
  by_cases hin : s.pc.toNat < 0x1000
  · have hlo := check_fault (s.pc.toNat + 1) (by omega)
    have hmax : max 0x1000 s.pc.toNat = s.pc.toNat + 1 := by omega
    simp only [State.fetch, ho, check_of_lt .fault _ hin, hlo, hmax]
  · have hout : 0x1000 ≤ s.pc.toNat := Nat.le_of_not_lt hin
    simp only [State.fetch, ho, check_fault _ hout, Nat.max_eq_right hout]

/-- Settles O9: both addresses are inside memory, where the reduction modulo 4096 is the identity. -/
theorem fetchIsBigEndian : Obligations.FetchIsBigEndian := by
  intro s hpc
  obtain ⟨op, hop, hword⟩ := s.fetch_bigEndian (.inr hpc)
  rw [Nat.mod_eq_of_lt (by omega), Nat.mod_eq_of_lt (by omega)] at hword
  exact ⟨op, hop, hword⟩

/-- Settles O10: the failing fetch records its fault on the state as it was; under WRAP no fetch fails. -/
theorem fetchOutsideMemory : Obligations.FetchOutsideMemory := by
  intro s hf hpc
  constructor
  · intro hfault
    exact step_of_fetch_error s _ hf (s.fetch_error hfault hpc)
  · intro hwrap
    exact s.fetch_bigEndian (.inl hwrap)

end Sys2Proof.Machine

/-! The four handlers that form data addresses, when the check of R62 refuses one: each raises before it writes
(spec/44_display.md R171; spec/46_timer_index_memory.md R205, R208, R209). -/

namespace Sys2Proof.Machine

theorem drw_raises (x y : Reg) (n : Nibble) (s : State) (a : Nat) (h : s.checkedAddrs n.toNat = .error a) :
    Raises (.drw x y n) s .addressOutOfRange (some a) := by
  simp only [Raises, exec, execDrw, h, State.raise_eq]

theorem ldB_raises (x : Reg) (s : State) (a : Nat) (h : s.checkedAddrs 3 = .error a) :
    Raises (.ldB x) s .addressOutOfRange (some a) := by
  simp only [Raises, exec, execLdB, h, State.raise_eq]

theorem ldMemVx_raises (x : Reg) (s : State) (a : Nat) (h : s.checkedAddrs (x.val + 1) = .error a) :
    Raises (.ldMemVx x) s .addressOutOfRange (some a) := by
  simp only [Raises, exec, execLdMemVx, h, State.raise_eq]

theorem ldVxMem_raises (x : Reg) (s : State) (a : Nat) (h : s.checkedAddrs (x.val + 1) = .error a) :
    Raises (.ldVxMem x) s .addressOutOfRange (some a) := by
  simp only [Raises, exec, execLdVxMem, h, State.raise_eq]

/-- Settles O52: the check answers the lowest address outside (`checkedAddrs_error`), and each handler raises it. -/
theorem dataAddressFaults : Obligations.DataAddressFaults := by
  intro x y n s ho lowest
  refine ⟨fun hn hout => ?_, fun hout => ?_, fun hout => ?_⟩
  · have hn' : n.toNat ≠ 0 := fun h0 => hn (BitVec.eq_of_toNat_eq h0)
    exact drw_raises x y n s _ (s.checkedAddrs_error n.toNat ho hn' hout)
  · exact ldB_raises x s _ (s.checkedAddrs_error 3 ho (by decide) hout)
  · have herr := s.checkedAddrs_error (x.val + 1) ho (Nat.succ_ne_zero x.val) hout
    exact ⟨ldMemVx_raises x s _ herr, ldVxMem_raises x s _ herr⟩

end Sys2Proof.Machine

/-! The block store inside memory (spec/46_timer_index_memory.md R208), and the fetch of what it stored
(spec/20_memory.md R73). -/

namespace Sys2Proof.Machine

/-- V0..Vx, the bytes Fx55 stores. -/
abbrev State.valuesUpTo (s : State) (x : Reg) : List Byte := (regsUpTo x).map s.readV

theorem State.valuesUpTo_length (s : State) (x : Reg) : (s.valuesUpTo x).length = x.val + 1 := by
  rw [List.length_map, regsUpTo_length]

theorem exec_ldMemVx_of_inRange (x : Reg) (s : State) (hr : s.dataInRange (x.val + 1)) :
    exec (.ldMemVx x) s = .next (s.writeBytes (s.cellsAtI (s.valuesUpTo x))) := by
  simp only [exec, execLdMemVx, s.checkedAddrs_ok _ hr, State.cellsAtI, s.valuesUpTo_length]

/-- After a block store the byte at I + j is Vj. -/
theorem writeBytes_valuesUpTo_readByte (s : State) (x j : Reg) (hwf : Memory.wf s.params.fontTable s.mem = true)
    (hj : j ≤ x) :
    (s.writeBytes (s.cellsAtI (s.valuesUpTo x))).readByte ((s.i.toNat + j.val) % 0x1000) = s.readV j := by
  have hlen : j.val < (regsUpTo x).length := by rw [regsUpTo_length]; exact Nat.lt_succ_of_le hj
  have hreg : (regsUpTo x)[j.val] = j := Fin.ext (regsUpTo_getElem x j.val hlen)
  have hle : (s.valuesUpTo x).length ≤ 16 := by rw [s.valuesUpTo_length]; exact x.isLt
  obtain ⟨hstored, -, -⟩ := s.storeAtI (s.valuesUpTo x) hle hwf
  rw [hstored j.val (by rwa [List.length_map]), List.getElem_map, hreg]

theorem State.readByte_congr {t u : State} (hmem : u.mem = t.mem) (hparams : u.params = t.params) (a : Nat) :
    u.readByte a = t.readByte a := by
  simp only [State.readByte, hmem, hparams]

/-- Settles O54: the fetch reads I + j and I + (j + 1), where the store put Vj and Vj+1. -/
theorem storedBytesAreFetched : Obligations.StoredBytesAreFetched := by
  intro x j s t u hwf hr hc hmem hparams hj hpc hin
  obtain ⟨hexec, -⟩ := hc
  rw [exec_ldMemVx_of_inRange x s hr] at hexec
  cases hexec
  have hnext : (j + 1).val = j.val + 1 := Fin.val_add_one_of_lt (hj.trans_le (Fin.le_last x))
  have hnext_le : j + 1 ≤ x := by rw [Fin.le_def, hnext]; exact hj
  have hhi := writeBytes_valuesUpTo_readByte s x j hwf hj.le
  have hlo := writeBytes_valuesUpTo_readByte s x (j + 1) hwf hnext_le
  rw [← hpc] at hhi
  rw [hnext, ← Nat.add_assoc, ← hpc] at hlo
  obtain ⟨op, hop, hword⟩ := u.fetch_bigEndian (.inr hin)
  rw [State.readByte_congr hmem hparams, State.readByte_congr hmem hparams, hhi, hlo] at hword
  exact ⟨op, hop, hword⟩

end Sys2Proof.Machine

/-! A word by its fields (spec/30_encoding.md R81): put together again when it has a row's bits under the row's mask, and
each field as a digit of the word. -/

namespace Sys2Proof

theorem addr_of_top {op : Word} (t : Nibble) (h : op &&& 0xF000#16 = t ++ 0x000#12) : t ++ fieldNNN op = op := by
  obtain rfl : fieldT op = t := by simpa [and_top] using congrArg fieldT h
  exact word_eq_addr op

theorem regByte_of_top {op : Word} (t : Nibble) (h : op &&& 0xF000#16 = t ++ 0x000#12) :
    t ++ regNibble (fieldX op) ++ fieldKK op = op := by
  obtain rfl : fieldT op = t := by simpa [and_top] using congrArg fieldT h
  exact word_eq_regByte op

theorem nibbles_of_top {op : Word} (t : Nibble) (h : op &&& 0xF000#16 = t ++ 0x000#12) :
    t ++ regNibble (fieldX op) ++ regNibble (fieldY op) ++ fieldN op = op := by
  obtain rfl : fieldT op = t := by simpa [and_top] using congrArg fieldT h
  exact word_eq_nibbles op

theorem middleByte_of_topLow {op : Word} (t n : Nibble) (h : op &&& 0xF00F#16 = t ++ 0x00#8 ++ n) :
    t ++ fieldXY op ++ n = op := by
  obtain rfl : fieldT op = t := by simpa [and_top_low] using congrArg fieldT h
  obtain rfl : fieldN op = n := by simpa [and_top_low] using congrArg fieldN h
  exact word_eq_middleByte op

theorem nibbles_of_topLow {op : Word} (t n : Nibble) (h : op &&& 0xF00F#16 = t ++ 0x00#8 ++ n) :
    t ++ regNibble (fieldX op) ++ regNibble (fieldY op) ++ n = op := by
  obtain rfl : fieldT op = t := by simpa [and_top_low] using congrArg fieldT h
  obtain rfl : fieldN op = n := by simpa [and_top_low] using congrArg fieldN h
  exact word_eq_nibbles op

theorem nibbles_of_topKey {op : Word} (t y : Nibble) (h : op &&& 0xF0F0#16 = t ++ 0x0#4 ++ y ++ 0x0#4) :
    t ++ regNibble (fieldX op) ++ y ++ fieldN op = op := by
  obtain rfl : fieldT op = t := by simpa [and_top_key] using congrArg fieldT h
  obtain rfl : fieldYKey op = y := by simpa [and_top_key] using congrArg fieldYKey h
  exact word_eq_nibbles op

theorem regByte_of_topByte {op : Word} (t : Nibble) (kk : Byte) (h : op &&& 0xF0FF#16 = t ++ 0x0#4 ++ kk) :
    t ++ regNibble (fieldX op) ++ kk = op := by
  obtain rfl : fieldT op = t := by simpa [and_top_byte] using congrArg fieldT h
  obtain rfl : fieldKK op = kk := by simpa [and_top_byte] using congrArg fieldKK h
  exact word_eq_regByte op

@[simp] theorem fieldKK_nibbles (t x y n : Nibble) : fieldKK (t ++ x ++ y ++ n) = y ++ n := by
  apply BitVec.eq_of_getLsbD_eq; intro i hi
  simp only [fieldKK, BitVec.getLsbD_extractLsb', BitVec.getLsbD_append]
  interval_cases i <;> simp

theorem fieldT_toNat (op : Word) : (fieldT op).toNat = op.toNat / 0x1000 := by
  simp only [fieldT, BitVec.extractLsb'_toNat, Nat.shiftRight_eq_div_pow]
  omega

theorem fieldYKey_toNat (op : Word) : (fieldYKey op).toNat = op.toNat / 0x10 % 0x10 := by
  simp only [fieldYKey, BitVec.extractLsb'_toNat, Nat.shiftRight_eq_div_pow]

theorem fieldN_toNat (op : Word) : (fieldN op).toNat = op.toNat % 0x10 := by
  simp only [fieldN, BitVec.extractLsb'_toNat, Nat.shiftRight_zero]

theorem fieldKK_toNat (op : Word) : (fieldKK op).toNat = op.toNat % 0x100 := by
  simp only [fieldKK, BitVec.extractLsb'_toNat, Nat.shiftRight_eq_div_pow]
  omega

theorem nibble_append_toNat {w : Nat} (a : BitVec w) (n : Nibble) :
    (a ++ n).toNat = 0x10 * a.toNat + n.toNat := by
  rw [BitVec.toNat_append, ← Nat.shiftLeft_add_eq_or_of_lt n.isLt, Nat.shiftLeft_eq]
  omega

theorem byte_append_toNat {w : Nat} (a : BitVec w) (b : Byte) : (a ++ b).toNat = 0x100 * a.toNat + b.toNat := by
  rw [BitVec.toNat_append, ← Nat.shiftLeft_add_eq_or_of_lt b.isLt, Nat.shiftLeft_eq]
  omega

theorem regNibble_toNat (x : Reg) : (regNibble x).toNat = x.val := rfl

/-- A word of the 8 family from its digits. -/
theorem nibbles_eight (x y : Reg) (n : Nat) (hn : n < 0x10) :
    0x8#4 ++ regNibble x ++ regNibble y ++ BitVec.ofNat 4 n =
      BitVec.ofNat 16 (0x8000 + 0x100 * x.val + 0x10 * y.val + n) := by
  apply BitVec.eq_of_toNat_eq
  simp only [nibble_append_toNat, regNibble_toNat, BitVec.toNat_ofNat]
  omega

/-- A word of the F family from its digits. -/
theorem regByte_F (x : Reg) (kk : Nat) (hkk : kk < 0x100) :
    0xF#4 ++ regNibble x ++ BitVec.ofNat 8 kk = BitVec.ofNat 16 (0xF000 + 0x100 * x.val + kk) := by
  apply BitVec.eq_of_toNat_eq
  simp only [byte_append_toNat, nibble_append_toNat, regNibble_toNat, BitVec.toNat_ofNat]
  omega

end Sys2Proof

/-! The decoder, its encoder and the opcode table (spec/30_encoding.md R83 to R91). Three facts carry the rest: an
encoding decodes to its instruction, what a word decodes to is of a row the word fits, and a word that fits a row is the
encoding of an instruction of that row. -/

namespace Sys2Proof

theorem decodeDocKeys_encode (i : Instr) : decodeDocKeys (encode i) = .ok i := by
  cases i with
  | cls _ | ret _ => simp [encode, decodeDocKeys, decode0]
  | jp _ | call _ | ldI _ | jpV0 _ => simp [encode, decodeDocKeys]
  | seImm _ _ | sneImm _ _ | ldImm _ _ | addImm _ _ | rnd _ _ => simp [encode, decodeDocKeys]
  | seReg _ _ _ | sneReg _ _ _ | drw _ _ _ => simp [encode, decodeDocKeys]
  | ldReg _ _ | orReg _ _ | andReg _ _ | xorReg _ _ | addReg _ _ | sub _ _ | shr _ _ | subn _ _ | shl _ _ =>
    simp [encode, decodeDocKeys, decode8]
  | skp _ _ | sknp _ _ => simp [encode, decodeDocKeys, decodeE]
  | ldVxDt _ | ldVxK _ | ldDtVx _ | ldStVx _ | addI _ | ldF _ | ldB _ | ldMemVx _ | ldVxMem _ =>
    simp [encode, decodeDocKeys, decodeF]

/-! ## The four families -/

theorem fits_of_decode0 {op : Word} {i : Instr} (ht : fieldT op = 0x0#4) (h : decode0 op = .ok i) :
    i.row.fits .docKeys op := by
  unfold decode0 at h
  repeat' split at h
  all_goals cases h
  all_goals simp [OpcodeRow.fits, Instr.row, and_top_low, *]

theorem fits_of_decode8 {op : Word} {i : Instr} (ht : fieldT op = 0x8#4) (h : decode8 op = .ok i) :
    i.row.fits .docKeys op := by
  unfold decode8 at h
  repeat' split at h
  all_goals cases h
  all_goals simp [OpcodeRow.fits, Instr.row, OpcodeRow.plain, and_top_low, *]

theorem fits_of_decodeE {op : Word} {i : Instr} (ht : fieldT op = 0xE#4) (h : decodeE op = .ok i) :
    i.row.fits .docKeys op := by
  unfold decodeE at h
  repeat' split at h
  all_goals cases h
  all_goals simp [OpcodeRow.fits, Instr.row, and_top_key, *]

theorem fits_of_decodeF {op : Word} {i : Instr} (ht : fieldT op = 0xF#4) (h : decodeF op = .ok i) :
    i.row.fits .docKeys op := by
  unfold decodeF at h
  repeat' split at h
  all_goals cases h
  all_goals simp [OpcodeRow.fits, Instr.row, OpcodeRow.plain, and_top_byte, *]

theorem decode0_eq_error_iff (op : Word) :
    decode0 op = .error (.unknownOpcode op) ↔ (fieldN op).toNat ≠ 0x0 ∧ (fieldN op).toNat ≠ 0xE := by
  simp only [decode0, ← BitVec.toNat_inj, BitVec.toNat_ofNat]
  split_ifs <;> simp [*]

theorem decodeE_eq_error_iff (op : Word) :
    decodeE op = .error (.unknownOpcode op) ↔ (fieldYKey op).toNat ≠ 0x9 ∧ (fieldYKey op).toNat ≠ 0xA := by
  simp only [decodeE, ← BitVec.toNat_inj, BitVec.toNat_ofNat]
  split_ifs <;> simp [*]

theorem decode8_eq_error_iff (op : Word) :
    decode8 op = .error (.unknownOpcode op) ↔ 0x8 ≤ (fieldN op).toNat ∧ (fieldN op).toNat ≠ 0xE := by
  simp only [decode8, ← BitVec.toNat_inj, BitVec.toNat_ofNat]
  split_ifs <;> simp <;> omega

theorem decodeF_eq_error_iff (op : Word) :
    decodeF op = .error (.unknownOpcode op) ↔
      (fieldKK op).toNat ∉ [0x07, 0x0A, 0x15, 0x18, 0x1E, 0x29, 0x33, 0x55, 0x65] := by
  simp only [decodeF, ← BitVec.toNat_inj, BitVec.toNat_ofNat]
  split_ifs <;> simp [*]

/-- What the primary dispatch can do (R83): hand the word to one of the four families, or decode it by its top nibble
alone. -/
theorem decodeDocKeys_cases (op : Word) :
    (fieldT op = 0x0#4 ∧ decodeDocKeys op = decode0 op) ∨ (fieldT op = 0x8#4 ∧ decodeDocKeys op = decode8 op) ∨
    (fieldT op = 0xE#4 ∧ decodeDocKeys op = decodeE op) ∨ (fieldT op = 0xF#4 ∧ decodeDocKeys op = decodeF op) ∨
    (fieldT op ∉ [0x0#4, 0x8#4, 0xE#4, 0xF#4] ∧ ∃ i : Instr, decodeDocKeys op = .ok i ∧ i.row.fits .docKeys op) := by
  obtain ⟨t, ht⟩ : ∃ t : Fin 16, fieldT op = BitVec.ofFin t := ⟨(fieldT op).toFin, rfl⟩
  fin_cases t <;> simp [decodeDocKeys, ht, OpcodeRow.fits, Instr.row, OpcodeRow.plain, and_top]

theorem fits_of_decodeDocKeys {op : Word} {i : Instr} (h : decodeDocKeys op = .ok i) : i.row.fits .docKeys op := by
  obtain ⟨ht, hd⟩ | ⟨ht, hd⟩ | ⟨ht, hd⟩ | ⟨ht, hd⟩ | ⟨-, j, hd, hj⟩ := decodeDocKeys_cases op <;> rw [hd] at h
  · exact fits_of_decode0 ht h
  · exact fits_of_decode8 ht h
  · exact fits_of_decodeE ht h
  · exact fits_of_decodeF ht h
  · cases h
    exact hj

/-- A word that fits a row of the table is the encoding of an instruction of that row. -/
theorem exists_encode_eq_of_fits {op : Word} (i : Instr) (h : i.row.fits .docKeys op) :
    ∃ j : Instr, j.row = i.row ∧ encode j = op := by
  cases i with
  | cls _ => exact ⟨.cls (fieldXY op), rfl, middleByte_of_topLow 0x0 0x0 h⟩
  | ret _ => exact ⟨.ret (fieldXY op), rfl, middleByte_of_topLow 0x0 0xE h⟩
  | jp _ => exact ⟨.jp (fieldNNN op), rfl, addr_of_top 0x1 h⟩
  | call _ => exact ⟨.call (fieldNNN op), rfl, addr_of_top 0x2 h⟩
  | seImm _ _ => exact ⟨.seImm (fieldX op) (fieldKK op), rfl, regByte_of_top 0x3 h⟩
  | sneImm _ _ => exact ⟨.sneImm (fieldX op) (fieldKK op), rfl, regByte_of_top 0x4 h⟩
  | seReg _ _ _ => exact ⟨.seReg (fieldX op) (fieldY op) (fieldN op), rfl, nibbles_of_top 0x5 h⟩
  | ldImm _ _ => exact ⟨.ldImm (fieldX op) (fieldKK op), rfl, regByte_of_top 0x6 h⟩
  | addImm _ _ => exact ⟨.addImm (fieldX op) (fieldKK op), rfl, regByte_of_top 0x7 h⟩
  | ldReg _ _ => exact ⟨.ldReg (fieldX op) (fieldY op), rfl, nibbles_of_topLow 0x8 0x0 h⟩
  | orReg _ _ => exact ⟨.orReg (fieldX op) (fieldY op), rfl, nibbles_of_topLow 0x8 0x1 h⟩
  | andReg _ _ => exact ⟨.andReg (fieldX op) (fieldY op), rfl, nibbles_of_topLow 0x8 0x2 h⟩
  | xorReg _ _ => exact ⟨.xorReg (fieldX op) (fieldY op), rfl, nibbles_of_topLow 0x8 0x3 h⟩
  | addReg _ _ => exact ⟨.addReg (fieldX op) (fieldY op), rfl, nibbles_of_topLow 0x8 0x4 h⟩
  | sub _ _ => exact ⟨.sub (fieldX op) (fieldY op), rfl, nibbles_of_topLow 0x8 0x5 h⟩
  | shr _ _ => exact ⟨.shr (fieldX op) (fieldY op), rfl, nibbles_of_topLow 0x8 0x6 h⟩
  | subn _ _ => exact ⟨.subn (fieldX op) (fieldY op), rfl, nibbles_of_topLow 0x8 0x7 h⟩
  | shl _ _ => exact ⟨.shl (fieldX op) (fieldY op), rfl, nibbles_of_topLow 0x8 0xE h⟩
  | sneReg _ _ _ => exact ⟨.sneReg (fieldX op) (fieldY op) (fieldN op), rfl, nibbles_of_top 0x9 h⟩
  | ldI _ => exact ⟨.ldI (fieldNNN op), rfl, addr_of_top 0xA h⟩
  | jpV0 _ => exact ⟨.jpV0 (fieldNNN op), rfl, addr_of_top 0xB h⟩
  | rnd _ _ => exact ⟨.rnd (fieldX op) (fieldKK op), rfl, regByte_of_top 0xC h⟩
  | drw _ _ _ => exact ⟨.drw (fieldX op) (fieldY op) (fieldN op), rfl, nibbles_of_top 0xD h⟩
  | skp _ _ => exact ⟨.skp (fieldX op) (fieldN op), rfl, nibbles_of_topKey 0xE 0x9 h⟩
  | sknp _ _ => exact ⟨.sknp (fieldX op) (fieldN op), rfl, nibbles_of_topKey 0xE 0xA h⟩
  | ldVxDt _ => exact ⟨.ldVxDt (fieldX op), rfl, regByte_of_topByte 0xF 0x07 h⟩
  | ldVxK _ => exact ⟨.ldVxK (fieldX op), rfl, regByte_of_topByte 0xF 0x0A h⟩
  | ldDtVx _ => exact ⟨.ldDtVx (fieldX op), rfl, regByte_of_topByte 0xF 0x15 h⟩
  | ldStVx _ => exact ⟨.ldStVx (fieldX op), rfl, regByte_of_topByte 0xF 0x18 h⟩
  | addI _ => exact ⟨.addI (fieldX op), rfl, regByte_of_topByte 0xF 0x1E h⟩
  | ldF _ => exact ⟨.ldF (fieldX op), rfl, regByte_of_topByte 0xF 0x29 h⟩
  | ldB _ => exact ⟨.ldB (fieldX op), rfl, regByte_of_topByte 0xF 0x33 h⟩
  | ldMemVx _ => exact ⟨.ldMemVx (fieldX op), rfl, regByte_of_topByte 0xF 0x55 h⟩
  | ldVxMem _ => exact ⟨.ldVxMem (fieldX op), rfl, regByte_of_topByte 0xF 0x65 h⟩

/-- DOC_KEYS decodes a word to `i` exactly when the word is the encoding of `i`. -/
theorem decodeDocKeys_eq_ok_iff (op : Word) (i : Instr) : decodeDocKeys op = .ok i ↔ encode i = op := by
  constructor
  · intro h
    obtain ⟨j, -, rfl⟩ := exists_encode_eq_of_fits i (fits_of_decodeDocKeys h)
    rw [decodeDocKeys_encode, Except.ok.injEq] at h
    rw [h]
  · rintro rfl
    exact decodeDocKeys_encode i

/-! ## The decode modes -/

/-- A mode decodes a word to `i` exactly when `i` is well-formed in the mode and the word is its encoding. -/
theorem decode_eq_ok_iff (m : DecodeMode) (op : Word) (i : Instr) :
    decode m op = .ok i ↔ i.wellFormed m = true ∧ encode i = op := by
  rw [← decodeDocKeys_eq_ok_iff, decode]
  cases decodeDocKeys op with
  | error e => simp
  | ok j =>
    dsimp only
    split_ifs with hj
    · simp only [Except.ok.injEq, iff_and_self]
      rintro rfl
      exact hj
    · simp only [Except.ok.injEq, false_iff]
      rintro ⟨hi, rfl⟩
      exact hj hi

theorem decode_docKeys (op : Word) : decode .docKeys op = decodeDocKeys op := by
  rw [decode]
  cases decodeDocKeys op <;> rfl

/-- No mode gives a meaning to a word that DOC_KEYS does not decode (R89). -/
theorem decode_eq_error_of_docKeys (m : DecodeMode) {op : Word} {e : DecodeError}
    (h : decode .docKeys op = .error e) : decode m op = .error e := by
  rw [decode_docKeys] at h
  rw [decode, h]

/-- An instruction whose ignored bits are the canonical ones is decoded from its word by both modes. -/
theorem decode_eq_ok_of_canonical (m : DecodeMode) {op : Word} (i : Instr) (hw : encode i = op)
    (hi : i.canonical = true) : decode m op = .ok i := by
  have hm : i.wellFormed m = true := by
    cases m with
    | docKeys => rfl
    | canonicalOnly => exact hi
  exact (decode_eq_ok_iff m op i).mpr ⟨hm, hw⟩

/-- Settles O2: one direction of `decode_eq_ok_iff`. -/
theorem decodeOfEncode : Obligations.DecodeOfEncode :=
  fun m i hi => (decode_eq_ok_iff m (encode i) i).mpr ⟨hi, rfl⟩

/-- Settles O3: the other direction of `decode_eq_ok_iff`. -/
theorem encodeOfDecode : Obligations.EncodeOfDecode :=
  fun m op i => (decode_eq_ok_iff m op i).mp

/-! ## The table in each mode -/

theorem and_eq_of_narrower {op cmask cbits mask bits : Word} (h : op &&& cmask = cbits) (hmask : cmask &&& mask = mask)
    (hbits : cbits &&& mask = bits) : op &&& mask = bits := by
  rw [← hbits, ← h, BitVec.and_assoc, hmask]

/-- The canonical pattern of a row is a part of its DOC_KEYS pattern. -/
theorem fits_docKeys_of_fits {m : DecodeMode} {op : Word} (i : Instr) (h : i.row.fits m op) :
    i.row.fits .docKeys op := by
  cases m with
  | docKeys => exact h
  | canonicalOnly =>
    cases i with
    | cls _ | ret _ | seReg _ _ _ | sneReg _ _ _ | skp _ _ | sknp _ _ =>
      simp only [OpcodeRow.fits, Instr.row] at h ⊢
      exact and_eq_of_narrower h (by decide) (by decide)
    | _ => exact h

theorem encode_fits_docKeys (i : Instr) : i.row.fits .docKeys (encode i) :=
  fits_of_decodeDocKeys (decodeDocKeys_encode i)

/-- The encoding of an instruction fits the canonical pattern of its row exactly when the ignored bits are canonical. -/
theorem encode_fits_canonicalOnly_iff (i : Instr) :
    i.row.fits .canonicalOnly (encode i) ↔ i.canonical = true := by
  cases i with
  | cls xy | ret xy =>
    simp only [OpcodeRow.fits, Instr.row, Instr.canonical, encode, beq_iff_eq]
    constructor
    · intro h
      exact (fieldXY_middleByte _ _ xy).symm.trans (congrArg fieldXY (BitVec.and_allOnes.symm.trans h))
    · rintro rfl
      rfl
  | seReg x y n | sneReg x y n =>
    simp only [OpcodeRow.fits, Instr.row, Instr.canonical, encode, beq_iff_eq, and_top_low, fieldT_nibbles,
      fieldN_nibbles]
    decide +revert
  | skp x n | sknp x n =>
    simp only [OpcodeRow.fits, Instr.row, Instr.canonical, encode, beq_iff_eq, and_top_byte, fieldT_nibbles,
      fieldKK_nibbles]
    decide +revert
  | _ => exact iff_of_true (encode_fits_docKeys _) rfl

theorem encode_fits_iff (m : DecodeMode) (i : Instr) : i.row.fits m (encode i) ↔ i.wellFormed m = true := by
  cases m with
  | docKeys => exact iff_of_true (encode_fits_docKeys i) rfl
  | canonicalOnly => exact encode_fits_canonicalOnly_iff i

/-- Settles O4: a word that decodes is an encoding, and so is a word that fits a row; an encoding fits its row in a mode
exactly when its instruction is well-formed there. -/
theorem decodeFollowsOpcodeTable : Obligations.DecodeFollowsOpcodeTable := by
  refine fun m op => ⟨fun i h => ?_, fun i h => ?_⟩
  · obtain ⟨hi, rfl⟩ := (decode_eq_ok_iff m op i).mp h
    exact (encode_fits_iff m i).mpr hi
  · obtain ⟨j, hrow, rfl⟩ := exists_encode_eq_of_fits i (fits_docKeys_of_fits i h)
    rw [← hrow, encode_fits_iff] at h
    exact ⟨j, (decode_eq_ok_iff m (encode j) j).mpr ⟨h, rfl⟩, hrow⟩

/-! ## Refused words and the keys of the families -/

theorem decodeDocKeys_eq_error_iff (op : Word) :
    decodeDocKeys op = .error (.unknownOpcode op) ↔
      (fieldT op = 0x0#4 ∧ decode0 op = .error (.unknownOpcode op)) ∨
      (fieldT op = 0x8#4 ∧ decode8 op = .error (.unknownOpcode op)) ∨
      (fieldT op = 0xE#4 ∧ decodeE op = .error (.unknownOpcode op)) ∨
      (fieldT op = 0xF#4 ∧ decodeF op = .error (.unknownOpcode op)) := by
  obtain ⟨ht, hd⟩ | ⟨ht, hd⟩ | ⟨ht, hd⟩ | ⟨ht, hd⟩ | ⟨ht, i, hd, -⟩ := decodeDocKeys_cases op <;> simp_all

/-- Settles O6: the refusals of the four families, each key read as a digit of the word. -/
theorem rejectedWords : Obligations.RejectedWords := by
  intro op t y n kk
  rw [decode_docKeys, decodeDocKeys_eq_error_iff, decode0_eq_error_iff, decode8_eq_error_iff, decodeE_eq_error_iff,
    decodeF_eq_error_iff]
  simp only [← BitVec.toNat_inj, fieldT_toNat, fieldYKey_toNat, fieldN_toNat, fieldKK_toNat]
  rfl

/-- An instruction whose word is that of the 8 family with low nibble `n` is what the word decodes to. -/
theorem decode_eight (m : DecodeMode) (x y : Reg) (i : Instr) (n : Nat)
    (hi : encode i = 0x8#4 ++ regNibble x ++ regNibble y ++ BitVec.ofNat 4 n) (hc : i.canonical = true)
    (hn : n < 0x10 := by decide) :
    decode m (BitVec.ofNat 16 (0x8000 + 0x100 * x.val + 0x10 * y.val + n)) = .ok i :=
  decode_eq_ok_of_canonical m i (hi.trans (nibbles_eight x y n hn)) hc

/-- An instruction whose word is that of the F family with low byte `kk` is what the word decodes to. -/
theorem decode_F (m : DecodeMode) (x : Reg) (i : Instr) (kk : Nat)
    (hi : encode i = 0xF#4 ++ regNibble x ++ BitVec.ofNat 8 kk) (hc : i.canonical = true)
    (hkk : kk < 0x100 := by decide) :
    decode m (BitVec.ofNat 16 (0xF000 + 0x100 * x.val + kk)) = .ok i :=
  decode_eq_ok_of_canonical m i (hi.trans (regByte_F x kk hkk)) hc

theorem decode_eight_of_no_key (m : DecodeMode) (x y : Reg) (n : Nat)
    (hn : n ∈ [0x8, 0x9, 0xA, 0xB, 0xC, 0xD, 0xF]) {op : Word}
    (hop : op = BitVec.ofNat 16 (0x8000 + 0x100 * x.val + 0x10 * y.val + n)) :
    decode m op = .error (.unknownOpcode op) := by
  have hval : op.toNat = 0x8000 + 0x100 * x.val + 0x10 * y.val + n ∧ 0x8 ≤ n ∧ n < 0x10 ∧ n ≠ 0xE := by
    simp only [List.mem_cons, List.not_mem_nil, or_false] at hn
    rw [hop, BitVec.toNat_ofNat]
    omega
  exact decode_eq_error_of_docKeys m ((rejectedWords op).mpr (.inr (.inl (by omega))))

theorem decode_F_of_no_key (m : DecodeMode) (x : Reg) (kk : Nat) (hlt : kk < 0x100)
    (hkk : kk ∉ [0x07, 0x0A, 0x15, 0x18, 0x1E, 0x29, 0x33, 0x55, 0x65]) {op : Word}
    (hop : op = BitVec.ofNat 16 (0xF000 + 0x100 * x.val + kk)) :
    decode m op = .error (.unknownOpcode op) := by
  have hval : op.toNat = 0xF000 + 0x100 * x.val + kk := by
    rw [hop, BitVec.toNat_ofNat]
    omega
  have hkey : op.toNat % 0x100 = kk := by omega
  rw [← hkey] at hkk
  exact decode_eq_error_of_docKeys m ((rejectedWords op).mpr (.inr (.inr (.inr ⟨by omega, hkk⟩))))

/-- Settles O5: a word with a key is the encoding of its instruction, every other word is on R88's list. -/
theorem eightAndFFamilyKeys : Obligations.EightAndFFamilyKeys := by
  intro m x y w8 wF
  have key8 := @decode_eight m x y
  have keyF := @decode_F m x
  exact ⟨key8 (.ldReg x y) 0x0 rfl rfl, key8 (.orReg x y) 0x1 rfl rfl, key8 (.andReg x y) 0x2 rfl rfl,
    key8 (.xorReg x y) 0x3 rfl rfl, key8 (.addReg x y) 0x4 rfl rfl, key8 (.sub x y) 0x5 rfl rfl,
    key8 (.shr x y) 0x6 rfl rfl, key8 (.subn x y) 0x7 rfl rfl, key8 (.shl x y) 0xE rfl rfl,
    fun n hn => decode_eight_of_no_key m x y n hn rfl,
    keyF (.ldVxDt x) 0x07 rfl rfl, keyF (.ldVxK x) 0x0A rfl rfl, keyF (.ldDtVx x) 0x15 rfl rfl,
    keyF (.ldStVx x) 0x18 rfl rfl, keyF (.addI x) 0x1E rfl rfl, keyF (.ldF x) 0x29 rfl rfl,
    keyF (.ldB x) 0x33 rfl rfl, keyF (.ldMemVx x) 0x55 rfl rfl, keyF (.ldVxMem x) 0x65 rfl rfl,
    fun kk hlt hkk => decode_F_of_no_key m x kk hlt hkk rfl⟩

/-- Settles O1: canonical words are decoded in both modes; the other five answers are evaluated. -/
theorem tableWordsDecode : Obligations.TableWordsDecode :=
  ⟨fun m =>
    have ok {op : Word} (i : Instr) := decode_eq_ok_of_canonical m (op := op) i
    ⟨ok (.cls 0x0E) rfl rfl, ok (.ret 0x0E) rfl rfl, ok (.jp 0x234) rfl rfl, ok (.ldImm 0xA 0x05) rfl rfl,
      ok (.addReg 0 1) rfl rfl, ok (.shl 2 0) rfl rfl, ok (.drw 0 1 5) rfl rfl, ok (.skp 5 0xE) rfl rfl,
      ok (.ldVxK 3) rfl rfl, decode_eq_error_of_docKeys m rfl⟩,
    rfl, rfl, rfl, rfl⟩

end Sys2Proof

/-! The cycle by its outcome (spec/30_encoding.md R95, R97): what the strobe makes of a handler's answer, that a legal
state always has one, and where PC goes. -/

namespace Sys2Proof.Machine

theorem tickByte_eq (b : Byte) : tickByte b = if 0 < b.toNat then b - 1 else 0 := by
  unfold tickByte
  split_ifs with h
  · rfl
  · exact BitVec.eq_of_toNat_eq (Nat.eq_zero_of_not_pos h)

theorem State.tick_eq (s : State) :
    s.tick = { s with
      dt := if 0 < s.dt.toNat then s.dt - 1 else 0
      st := if 0 < s.st.toNat then s.st - 1 else 0 } := by
  simp only [State.tick, tickByte_eq]

/-- Settles O7: a handler that left no record is followed by the tick. -/
theorem stepRunsTheDecodedInstruction : Obligations.StepRunsTheDecodedInstruction := by
  intro s t i hi he ht
  have he' : exec i s.advance = .next t := he
  rw [step_of_executes s i hi, he', finishCycle_of_no_fault t ht, State.tick_eq]

/-- Settles O8: the end of a cycle changes neither a state with a record nor a stop. -/
theorem stepPassesOnAFault : Obligations.StepPassesOnAFault := by
  intro s i hi
  have hstep : step s = finishCycle (exec i { s with pc := s.pc + 2 }) := step_of_executes s i hi
  refine ⟨fun t r he ht => ?_, fun f he => ?_⟩
  · rw [hstep, he, finishCycle_of_fault t r ht]
  · rw [hstep, he]
    rfl

/-- Settles O11: the fault is taken on the state as the cycle began. -/
theorem unknownWordFaults : Obligations.UnknownWordFaults := step_of_decode_error

/-! ## Every strobe answers -/

/-- Only CALL and RET can stop, and only with SP above 16 (log 4). -/
theorem exec_answers (i : Instr) (s : State) (hs : s.sp.toNat ≤ 16) : ∃ t, exec i s = .next t := by
  cases i with
  | call nnn =>
    obtain hlt | hfull := lt_or_eq_of_le hs
    · exact ⟨_, exec_call_of_lt nnn s hlt⟩
    · exact ⟨_, exec_call_of_full nnn s hfull⟩
  | ret xy =>
    by_cases hempty : s.sp.toNat = 0
    · exact ⟨_, exec_ret_of_empty xy s hempty⟩
    · exact ⟨_, exec_ret_of_le xy s hempty (by omega)⟩
  | drw _ _ _ | ldB _ | ldMemVx _ | ldVxMem _ =>
    simp only [exec, execDrw, execLdB, execLdMemVx, execLdVxMem]
    split <;> exact ⟨_, rfl⟩
  | skp _ _ | sknp _ _ | ldVxK _ =>
    simp only [exec, execSkp, execSknp, execLdVxK]
    split <;> exact ⟨_, rfl⟩
  | _ => exact ⟨_, rfl⟩

/-- Settles O16: every path through the cycle answers, the handler because SP is at most 16. -/
theorem everyStrobeAnswers : Obligations.EveryStrobeAnswers := by
  intro s hs
  cases hf : s.fault with
  | some r => exact ⟨s, step_of_halted s r hf⟩
  | none =>
    cases ho : s.fetch with
    | error a => exact ⟨_, step_of_fetch_error s a hf ho⟩
    | ok op =>
      cases hd : decode s.params.decodeMode op with
      | error e => exact ⟨_, step_of_decode_error s op e hf ho hd⟩
      | ok i =>
        obtain ⟨u, hu⟩ := exec_answers i s.advance hs.sp_le
        rw [step_of_executes s i ⟨hf, op, ho, hd⟩, hu]
        exact ⟨_, rfl⟩

/-! ## PC after a completed cycle -/

/-- A completed cycle: its handler answered, raised nothing and wrote only what its instruction is there to write. -/
theorem Cycle.handler {s t : State} {i : Instr} (h : Cycle s i t) :
    ∃ u, exec i s.advance = .next u ∧ WritesOnlyItsOwn i s.advance u ∧ u.fault = none ∧ t.pc = u.pc := by
  obtain ⟨-, u, he, hu, rfl⟩ := h.inv
  obtain ⟨kind, addr, rfl⟩ | hw := exec_writesOnlyItsOwn i s.advance u he
  · rw [State.raise_fault] at hu
    cases hu
  · exact ⟨u, he, hw, hu, rfl⟩

theorem State.skipIf_advance_pc (s : State) (c : Bool) :
    (s.advance.skipIf c).pc = s.pc + 2 ∨ (s.advance.skipIf c).pc = s.pc + 4 := by
  cases c with
  | false => exact .inl rfl
  | true => exact .inr (BitVec.add_assoc s.pc 2 2)

theorem State.advance_rewind_pc (s : State) : s.advance.rewind.pc = s.pc := BitVec.add_sub_cancel s.pc 2

/-- Bnnn does not wrap: 0xFFF + 0xFF fits 16 bits. -/
theorem jpV0_target_toNat (nnn : Addr12) (b : Byte) :
    (zextAddr nnn + zextByte b).toNat = nnn.toNat + b.toNat := by
  rw [BitVec.toNat_add, zextAddr_toNat, zextByte_toNat]
  omega

theorem call_pc {nnn : Addr12} {s u : State} (h : exec (.call nnn) s = .next u) (hu : u.fault = none) :
    u.pc = zextAddr nnn := by
  rcases lt_trichotomy s.sp.toNat 16 with hlt | hfull | habove
  · rw [exec_call_of_lt nnn s hlt] at h
    cases h
    rfl
  · rw [exec_call_of_full nnn s hfull] at h
    cases h
    cases hu
  · rw [exec_call_of_gt nnn s habove] at h
    cases h

theorem ret_pc {xy : Byte} {s u : State} (h : exec (.ret xy) s = .next u) (hu : u.fault = none) :
    some u.pc = s.stack[s.sp.toNat - 1]? := by
  by_cases hempty : s.sp.toNat = 0
  · rw [exec_ret_of_empty xy s hempty] at h
    cases h
    cases hu
  by_cases hle : s.sp.toNat - 1 < 16
  · rw [exec_ret_of_le xy s hempty hle] at h
    cases h
    exact (Vector.getElem?_eq_getElem hle).symm
  · rw [exec_ret_of_gt xy s (by omega)] at h
    cases h

/-- Settles O17: the target of each control instruction, the two ways of a skip and of Fx0A; no other instruction
writes PC. -/
theorem pcAfterACycle : Obligations.PcAfterACycle := by
  intro s t i hc
  obtain ⟨u, he, hw, hu, hpc⟩ := hc.handler
  rw [hpc]
  cases i with
  | jp nnn =>
    cases he
    exact zextAddr_toNat nnn
  | call nnn => exact (congrArg BitVec.toNat (call_pc he hu)).trans (zextAddr_toNat nnn)
  | jpV0 nnn =>
    cases he
    exact jpV0_target_toNat nnn (s.readV 0)
  | ret _ => exact ret_pc (s := s.advance) he hu
  | seImm _ _ | sneImm _ _ | seReg _ _ _ | sneReg _ _ _ =>
    cases he
    exact s.skipIf_advance_pc _
  | skp _ _ | sknp _ _ =>
    simp only [exec, execSkp, execSknp] at he
    split at he <;> cases he
    · cases hu
    · exact s.skipIf_advance_pc _
  | ldVxK _ =>
    obtain ⟨b, rfl⟩ | rfl := hw
    · exact .inl rfl
    · exact .inr s.advance_rewind_pc
  | cls _ => obtain rfl := hw; rfl
  | ldImm _ _ | addImm _ _ | ldReg _ _ | orReg _ _ | andReg _ _ | xorReg _ _ | ldVxDt _ | ldI _ | addI _ | ldF _
  | rnd _ _ | ldDtVx _ | ldStVx _ => obtain ⟨b, rfl⟩ := hw; rfl
  | addReg _ _ | sub _ _ | shr _ _ | subn _ _ | shl _ _ =>
    obtain ⟨f, r, again, rfl⟩ := hw
    exact State.writeFlagResult_pc ..
  | drw _ _ _ => obtain ⟨ps, b, rfl⟩ := hw; exact State.drawPixels_pc ..
  | ldB _ | ldMemVx _ => obtain ⟨cells, rfl⟩ := hw; exact State.writeBytes_pc ..
  | ldVxMem _ => obtain ⟨cells, -, rfl⟩ := hw; exact State.writeVs_pc ..

end Sys2Proof.Machine

/-! Jumps, calls, returns and skips (spec/41_control_flow.md R110 to R117): each writes PC, a call and a return the
stack as well, and nothing else. -/

namespace Sys2Proof.Machine

/-! ## The frames -/

theorem setPc_unchangedBut_pc (s : State) (a : Word) : UnchangedBut (fun e => e = .pc) s (s.setPc a) := by
  intro e he
  cases e with
  | pc => exact absurd rfl he
  | _ => rfl

theorem skipIf_unchangedBut_pc (s : State) (c : Bool) : UnchangedBut (fun e => e = .pc) s (s.skipIf c) := by
  rw [State.skipIf_eq]
  exact setPc_unchangedBut_pc s _

theorem State.pushAt_slot_same (s : State) (j : Fin 16) (a : Word) : (s.pushAt j a).stack[j] = a :=
  Vector.getElem_set_self j.isLt

theorem State.pushAt_slot_of_ne (s : State) {j k : Fin 16} (a : Word) (hk : k ≠ j) :
    (s.pushAt j a).stack[k] = s.stack[k] :=
  Vector.getElem_set_ne j.isLt k.isLt (Fin.val_ne_of_ne hk.symm)

theorem pushAt_setPc_unchangedBut (s : State) (j : Fin 16) (a b : Word) :
    UnchangedBut (fun e => e = .pc ∨ e = .sp ∨ e = .slot j) s ((s.pushAt j a).setPc b) := by
  intro e he
  cases e with
  | pc => exact absurd (.inl rfl) he
  | sp => exact absurd (.inr (.inl rfl)) he
  | slot k => exact s.pushAt_slot_of_ne a fun hk => he (.inr (.inr (congrArg Elem.slot hk)))
  | _ => rfl

theorem popped_setPc_unchangedBut (s : State) (a : Word) :
    UnchangedBut (fun e => e = .pc ∨ e = .sp) s (s.popped.setPc a) := by
  intro e he
  cases e with
  | pc => exact absurd (.inl rfl) he
  | sp => exact absurd (.inr rfl) he
  | _ => rfl

/-! ## Jump and skips -/

/-- Settles O23: a 12-bit target fits PC as it is. -/
theorem jumpResult : Obligations.JumpResult := fun nnn s =>
  ⟨s.setPc (zextAddr nnn), ⟨rfl, rfl⟩, zextAddr_toNat nnn, setPc_unchangedBut_pc s _⟩

/-- An instruction that skips when the Boolean equality of two bytes holds, as the condition `a = b`. -/
theorem completes_skip_of_eq {i : Instr} {s : State} {a b : Byte} (h : exec i s = .next (s.skipIf (a == b))) :
    ∃ t, Completes i s t ∧ t.pc = (if a = b then s.pc + 2 else s.pc) ∧ UnchangedBut (fun e => e = .pc) s t := by
  refine ⟨_, ⟨h, s.skipIf_fault _⟩, ?_, skipIf_unchangedBut_pc s _⟩
  simp only [State.skipIf_pc, beq_iff_eq]

/-- An instruction that skips when the Boolean inequality of two bytes holds, as the condition `a = b`. -/
theorem completes_skip_of_ne {i : Instr} {s : State} {a b : Byte} (h : exec i s = .next (s.skipIf (a != b))) :
    ∃ t, Completes i s t ∧ t.pc = (if a = b then s.pc else s.pc + 2) ∧ UnchangedBut (fun e => e = .pc) s t := by
  refine ⟨_, ⟨h, s.skipIf_fault _⟩, ?_, skipIf_unchangedBut_pc s _⟩
  simp only [State.skipIf_pc, bne_iff_ne, ite_not]

/-- Settles O27: the skip on equal bytes and the one on different bytes, against kk. -/
theorem skipOnImmediate : Obligations.SkipOnImmediate := fun _ _ _ =>
  ⟨completes_skip_of_eq rfl, completes_skip_of_ne rfl⟩

/-- Settles O28: the same two skips, against Vy. -/
theorem skipOnRegister : Obligations.SkipOnRegister := fun _ _ _ _ =>
  ⟨completes_skip_of_eq rfl, completes_skip_of_ne rfl⟩

/-! ## Call and return -/

theorem exec_call_of_slot (nnn : Addr12) (s : State) (j : Fin 16) (hj : s.sp.toNat = j.val) :
    exec (.call nnn) s = .next ((s.pushAt j s.pc).setPc (zextAddr nnn)) := by
  have hlt : s.sp.toNat < 16 := hj ▸ j.isLt
  obtain rfl : j = ⟨s.sp.toNat, hlt⟩ := Fin.ext hj.symm
  exact exec_call_of_lt nnn s hlt

theorem exec_ret_of_slot (xy : Byte) (s : State) (j : Fin 16) (hj : s.sp.toNat = j.val + 1) :
    exec (.ret xy) s = .next (s.popped.setPc s.stack[j]) := by
  have hlt : s.sp.toNat - 1 < 16 := by omega
  obtain rfl : j = ⟨s.sp.toNat - 1, hlt⟩ := Fin.ext (Nat.eq_sub_of_add_eq hj.symm)
  exact exec_ret_of_le xy s (by omega) hlt

/-- Settles O24: one equation per range of SP; the count of at most 16 entries fits SP. -/
theorem callResult : Obligations.CallResult := by
  intro nnn s
  refine ⟨fun j hj => ?_, exec_call_of_full nnn s, exec_call_of_gt nnn s⟩
  have hsp : (s.sp + 1).toNat = j.val + 1 := by bv_omega
  exact ⟨_, ⟨exec_call_of_slot nnn s j hj, rfl⟩, s.pushAt_slot_same j s.pc, hsp, zextAddr_toNat nnn,
    pushAt_setPc_unchangedBut s j s.pc _⟩

/-- Settles O25: one equation per range of SP; with an entry held the count does not pass below 0. -/
theorem returnResult : Obligations.ReturnResult := by
  intro xy s
  refine ⟨fun j hj => ?_, exec_ret_of_empty xy s, exec_ret_of_gt xy s⟩
  have hsp : (s.sp - 1).toNat = j.val := by bv_omega
  exact ⟨_, ⟨exec_ret_of_slot xy s j hj, rfl⟩, rfl, hsp, popped_setPc_unchangedBut s _⟩

/-- Settles O26: the inner call and return use the slot above the outer return address, which stays in its own. -/
theorem returnAfterCall : Obligations.ReturnAfterCall := by
  rintro a b xy₁ xy₂ s t u hs ⟨hcall, -⟩ hstack hsp
  let outer : Fin 16 := ⟨s.sp.toNat, by omega⟩
  let inner : Fin 16 := ⟨s.sp.toNat + 1, by omega⟩
  have hne : outer ≠ inner := Fin.ne_of_lt (Nat.lt_succ_self _)
  obtain ⟨t', ⟨hcall', -⟩, hslot, hspt, -, -⟩ := (callResult a s).1 outer rfl
  obtain rfl : t' = t := Host.Outcome.next.inj (hcall'.symm.trans hcall)
  have hspu : u.sp.toNat = inner.val := hsp ▸ hspt
  obtain ⟨u₁, hc₁, hslot₁, hsp₁, -, hframe₁⟩ := (callResult b u).1 inner hspu
  obtain ⟨u₂, hc₂, hpc₂, hsp₂, hframe₂⟩ := (returnResult xy₁ u₁).1 inner hsp₁
  obtain ⟨u₃, hc₃, hpc₃, hsp₃, -⟩ := (returnResult xy₂ u₂).1 outer hsp₂
  have hkeep₁ : u₁.stack[outer] = u.stack[outer] := hframe₁ (.slot outer) (by simp [hne])
  have hkeep₂ : u₂.stack[outer] = u₁.stack[outer] := hframe₂ (.slot outer) (by simp)
  have hback : u₃.pc = s.pc := by rw [hpc₃, hkeep₂, hkeep₁, hstack, hslot]
  exact ⟨u₁, u₂, u₃, hc₁, hc₂, hc₃, hpc₂.trans hslot₁, hback, BitVec.eq_of_toNat_eq hsp₃⟩

end Sys2Proof.Machine

/-! Moves, arithmetic, logic and shifts (spec/42_arithmetic_logic_shift.md R130 to R151): each writes Vx, the flagged
ones VF as well, and nothing else. -/

namespace Sys2Proof.Machine

/-! ## One register written -/

theorem writeV_unchangedBut_v (s : State) (x : Reg) (b : Byte) :
    UnchangedBut (fun e => e = .v x) s (s.writeV x b) := by
  intro e he
  cases e with
  | v z => exact (s.writeV_readV x z b).trans (if_neg fun hz => he (congrArg Elem.v hz))
  | _ => rfl

/-- An instruction that writes one register completes with that register's new value and the frame. -/
theorem completes_writeV {i : Instr} {s : State} {x : Reg} {b : Byte} (h : exec i s = .next (s.writeV x b)) :
    ∃ t, Completes i s t ∧ t.readV x = b ∧ UnchangedBut (fun e => e = .v x) s t :=
  ⟨_, ⟨h, rfl⟩, (s.writeV_readV x x b).trans (if_pos rfl), writeV_unchangedBut_v s x b⟩

/-- Settles O30: LD Vx, kk is one register write. -/
theorem loadImmediate : Obligations.LoadImmediate := fun _ _ _ => completes_writeV rfl

/-- Settles O31: ADD Vx, kk is one register write, of the sum modulo 256. -/
theorem addImmediate : Obligations.AddImmediate := by
  intro x kk s
  obtain ⟨t, hc, hv, hframe⟩ := completes_writeV (i := .addImm x kk) (s := s) rfl
  exact ⟨t, hc, hv ▸ addResult_toNat _ _, hframe⟩

/-- The same with the new value given bit by bit. -/
theorem completes_writeV_bits {i : Instr} {s : State} {x : Reg} {b : Byte} {bit : Nat → Bool}
    (h : exec i s = .next (s.writeV x b)) (hbit : ∀ k, b.getLsbD k = bit k) :
    ∃ t, Completes i s t ∧ (∀ k < 8, (t.readV x).getLsbD k = bit k) ∧ UnchangedBut (fun e => e = .v x) s t := by
  obtain ⟨t, hc, hv, hframe⟩ := completes_writeV h
  exact ⟨t, hc, fun k _ => hv ▸ hbit k, hframe⟩

/-- Settles O32: each is one register write, whose bits are the library's for the bitwise operations. -/
theorem moveAndLogic : Obligations.MoveAndLogic := fun _ _ _ =>
  ⟨completes_writeV rfl,
    completes_writeV_bits rfl fun _ => BitVec.getLsbD_or,
    completes_writeV_bits rfl fun _ => BitVec.getLsbD_and,
    completes_writeV_bits rfl fun _ => BitVec.getLsbD_xor⟩

/-! ## A flag and a result written (R140) -/

theorem addFlag_toNat (a b : Byte) :
    (flagByte (addFlag a b)).toNat = if 255 < a.toNat + b.toNat then 1 else 0 := by
  simp only [flagByte_toNat, addFlag, decide_eq_true_eq]

theorem subFlag_toNat (a b : Byte) : (flagByte (subFlag a b)).toNat = if b.toNat < a.toNat then 1 else 0 := by
  simp only [flagByte_toNat, subFlag, decide_eq_true_eq]

theorem readV_writeV_regF_of_ne (s : State) {x : Reg} (b : Byte) (hx : x ≠ regF) :
    (s.writeV regF b).readV x = s.readV x :=
  (s.writeV_readV regF x b).trans (if_neg hx)

theorem readV_writeV_regF_same (s : State) (b : Byte) : (s.writeV regF b).readV regF = b :=
  (s.writeV_readV regF regF b).trans (if_pos rfl)

section WriteFlagResult

variable {s : State} {x : Reg} {f : Bool} {r : Byte} {again : State → Byte}

theorem writeFlagResult_unchangedBut :
    UnchangedBut (fun e => e = .v x ∨ e = .v regF) s (s.writeFlagResult x f r again) := by
  intro e he
  cases e with
  | v z =>
    exact s.writeFlagResult_readV_other x z f r again (fun hz => he (.inl (congrArg Elem.v hz)))
      fun hz => he (.inr (congrArg Elem.v hz))
  | _ => rw [State.writeFlagResult_eq]; rfl

theorem completes_writeFlagResult {i : Instr} (h : exec i s = .next (s.writeFlagResult x f r again)) :
    Completes i s (s.writeFlagResult x f r again) :=
  ⟨h, s.writeFlagResult_fault x f r again⟩

/-- With x not F every order leaves the flag in VF. -/
theorem writeFlagResult_readV_regF_of_ne (hx : x ≠ regF) :
    (s.writeFlagResult x f r again).readV regF = flagByte f := by
  unfold State.writeFlagResult
  cases s.params.vfAliasOrder with
  | resultLast | sequential => simp only [State.writeV_readV, if_neg hx.symm, if_true]
  | flagLast => exact readV_writeV_regF_same _ _

/-- With x not F the order decides only whether the result is computed before or after the flag is written. -/
theorem writeFlagResult_readV_of_ne (hx : x ≠ regF) : (s.writeFlagResult x f r again).readV x =
    if s.params.vfAliasOrder = .sequential then again (s.writeV regF (flagByte f)) else r := by
  unfold State.writeFlagResult
  cases s.params.vfAliasOrder <;> simp [hx]

/-- With x not F, an operation on Vx and Vy sees the new VF under SEQUENTIAL with y = F and nowhere else. -/
theorem writeFlagResult_operation_readV_of_ne (op : Byte → Byte → Byte) (y : Reg) (hx : x ≠ regF) :
    (s.writeFlagResult x f (op (s.readV x) (s.readV y)) (fun t => op (t.readV x) (t.readV y))).readV x =
      if s.params.vfAliasOrder = .sequential ∧ y = regF then op (s.readV x) (flagByte f)
      else op (s.readV x) (s.readV y) := by
  rw [writeFlagResult_readV_of_ne hx, readV_writeV_regF_of_ne s _ hx, State.writeV_readV]
  by_cases hy : y = regF
  · simp only [hy, and_true, if_true]
  · simp only [hy, and_false, if_false, ite_self]

/-- With x = F the order decides what VF keeps: the result, the flag, or the result computed from the flag. -/
theorem writeFlagResult_regF_toNat {result flag fromFlag : Nat} (hr : r.toNat = result)
    (hf : (flagByte f).toNat = flag) (hagain : (again (s.writeV regF (flagByte f))).toNat = fromFlag) :
    ((s.writeFlagResult regF f r again).readV regF).toNat = match s.params.vfAliasOrder with
      | .resultLast => result
      | .flagLast => flag
      | .sequential => fromFlag := by
  unfold State.writeFlagResult
  cases s.params.vfAliasOrder with
  | resultLast => rw [readV_writeV_regF_same, hr]
  | flagLast => rw [readV_writeV_regF_same, hf]
  | sequential => rw [readV_writeV_regF_same, hagain]

end WriteFlagResult

/-- Settles O33: the sum is sampled, so no order changes it; with x = F the order decides what VF keeps. -/
theorem addWithCarry : Obligations.AddWithCarry := by
  intro x y s a b r f
  have hsum : (addResult (s.readV x) (s.readV y)).toNat = r := addResult_toNat _ _
  have hcarry : (flagByte (addFlag (s.readV x) (s.readV y))).toNat = f := addFlag_toNat _ _
  refine ⟨_, completes_writeFlagResult rfl, writeFlagResult_unchangedBut, fun hx => ⟨?_, ?_⟩, ?_⟩
  · rw [writeFlagResult_readV_of_ne hx, ite_self]
    exact hsum
  · rw [writeFlagResult_readV_regF_of_ne hx]
    exact hcarry
  · rintro rfl
    rw [writeFlagResult_regF_toNat hsum hcarry hsum]
    cases s.params.vfAliasOrder <;> rfl

/-! ## Shifts -/

/-- What both shifts do, for an operation on Vx that is `g` on numbers: with x = F and SEQUENTIAL it is applied to
the new VF. -/
theorem shift_result {i : Instr} {s : State} {x : Reg} {op : Byte → Byte} {g : Nat → Nat} {fromFlag : Nat}
    (h : exec i s = .next (s.writeFlagResult x (shiftFlag (s.readV x)) (op (s.readV x)) (fun t => op (t.readV x))))
    (hop : ∀ a, (op a).toNat = g a.toNat) (hflag : g ((s.readV x).toNat % 2) = fromFlag) :
    ∃ t, Completes i s t ∧ UnchangedBut (fun e => e = .v x ∨ e = .v regF) s t ∧
      (x ≠ regF → (t.readV x).toNat = g (s.readV x).toNat ∧ (t.readV regF).toNat = (s.readV x).toNat % 2) ∧
      (x = regF → (t.readV regF).toNat = match s.params.vfAliasOrder with
        | .resultLast => g (s.readV x).toNat
        | .flagLast => (s.readV x).toNat % 2
        | .sequential => fromFlag) := by
  refine ⟨_, completes_writeFlagResult h, writeFlagResult_unchangedBut, fun hx => ⟨?_, ?_⟩, ?_⟩
  · rw [writeFlagResult_readV_of_ne hx, readV_writeV_regF_of_ne s _ hx, ite_self, hop]
  · rw [writeFlagResult_readV_regF_of_ne hx, shiftFlag_toNat]
  · rintro rfl
    refine writeFlagResult_regF_toNat (hop _) (shiftFlag_toNat _) ?_
    rw [readV_writeV_regF_same, hop, shiftFlag_toNat, hflag]

/-- Settles O36: the flag is at most 1, so its half is 0. -/
theorem shiftRight : Obligations.ShiftRight := fun _ _ _ =>
  shift_result (g := fun a => a / 2) rfl shrResult_toNat (by omega)

/-- Settles O37: the flag is at most 1, so its double is not cut at 256. -/
theorem shiftLeft : Obligations.ShiftLeft := fun _ _ _ =>
  shift_result (g := fun a => 2 * a % 256) rfl shlResult_toNat (by omega)

/-! ## Subtractions -/

/-- What both subtractions do, for an operation on Vx and Vy that is `g` on numbers: under SEQUENTIAL the new VF
stands for Vy with y = F, and for Vx with x = F. -/
theorem subtraction_result {i : Instr} {s : State} {x y : Reg} {f : Bool} {flag : Nat} (op : Byte → Byte → Byte)
    (g : Nat → Nat → Nat)
    (h : exec i s = .next
      (s.writeFlagResult x f (op (s.readV x) (s.readV y)) (fun t => op (t.readV x) (t.readV y))))
    (hf : (flagByte f).toNat = flag) (hop : ∀ a b, (op a b).toNat = g a.toNat b.toNat) (hself : ∀ a, op a a = 0) :
    ∃ t, Completes i s t ∧ UnchangedBut (fun e => e = .v x ∨ e = .v regF) s t ∧
      (x ≠ regF → (t.readV regF).toNat = flag) ∧
      (x ≠ regF → (t.readV x).toNat =
        if s.params.vfAliasOrder = .sequential ∧ y = regF then g (s.readV x).toNat flag
        else g (s.readV x).toNat (s.readV y).toNat) ∧
      (x = regF → (t.readV regF).toNat = match s.params.vfAliasOrder with
        | .resultLast => g (s.readV x).toNat (s.readV y).toNat
        | .flagLast => flag
        | .sequential => if y = regF then 0 else g flag (s.readV y).toNat) := by
  refine ⟨_, completes_writeFlagResult h, writeFlagResult_unchangedBut, fun hx => ?_, fun hx => ?_, ?_⟩
  · rw [writeFlagResult_readV_regF_of_ne hx, hf]
  · rw [writeFlagResult_operation_readV_of_ne op y hx, apply_ite BitVec.toNat, hop, hop, hf]
  · rintro rfl
    refine writeFlagResult_regF_toNat (hop _ _) hf ?_
    rw [readV_writeV_regF_same, State.writeV_readV]
    by_cases hy : y = regF
    · rw [if_pos hy, if_pos hy, hself]; rfl
    · rw [if_neg hy, if_neg hy, hop, hf]

/-- Settles O34: the flag and the difference are those of Vx and Vy. -/
theorem subtractWithBorrow : Obligations.SubtractWithBorrow := fun _ _ _ =>
  subtraction_result subResult (fun a b => (256 + a - b) % 256) rfl (subFlag_toNat _ _) subResult_toNat
    BitVec.sub_self

/-- Settles O35: the flag and the difference are those of Vy and Vx. -/
theorem reverseSubtract : Obligations.ReverseSubtract := fun _ _ _ =>
  subtraction_result (fun a b => subResult b a) (fun a b => (256 + b - a) % 256) rfl (subFlag_toNat _ _)
    (fun a b => subResult_toNat b a) BitVec.sub_self

end Sys2Proof.Machine

/-! Index load, jump with offset, random byte (spec/43_index_jump_random.md R160 to R162): each writes I, PC, or Vx and
the RAND port, and nothing else. -/

namespace Sys2Proof.Machine

/-! ## Random byte -/

theorem State.nextRand_of_cons {s : State} {d : Byte} {ds : List Byte} (h : s.rand.injected = d :: ds) :
    s.nextRand = d := by
  simp only [State.nextRand, h]

theorem State.nextRand_of_nil {s : State} (h : s.rand.injected = []) :
    s.nextRand = Config.freeRandByte s.rand.draws := by
  simp only [State.nextRand, h]

theorem consumeRand_writeV_unchangedBut (s : State) (x : Reg) (b : Byte) :
    UnchangedBut (fun e => e = .v x ∨ e = .rand) s (s.consumeRand.writeV x b) := by
  intro e he
  cases e with
  | v z => exact writeV_unchangedBut_v s.consumeRand x b (.v z) fun hz => he (.inl hz)
  | rand => exact absurd (.inr rfl) he
  | _ => rfl

/-- Settles O40: the draw is `nextRand`, by whether a byte is injected; the port loses it whatever Vx is. -/
theorem randomByteIsMasked : Obligations.RandomByteIsMasked := by
  intro x kk s
  refine ⟨s.consumeRand.writeV x (s.nextRand &&& kk), s.nextRand, ⟨rfl, rfl⟩, fun d ds hcons => ?_, fun hnil => ?_,
    fun b _ => ?_, rfl, consumeRand_writeV_unchangedBut s x _⟩
  · exact ⟨State.nextRand_of_cons hcons, congrArg List.tail hcons⟩
  · exact ⟨State.nextRand_of_nil hnil, congrArg List.tail hnil⟩
  · rw [State.writeV_readV, if_pos rfl, BitVec.getLsbD_and]

/-! ## Jump with offset and index load -/

/-- Settles O29: the sum of 12 bits and 8 bits fits PC. -/
theorem jumpWithOffset : Obligations.JumpWithOffset := by
  intro nnn s
  have htarget := jpV0_target_toNat nnn (s.readV 0)
  refine ⟨s.setPc (zextAddr nnn + zextByte (s.readV 0)), ⟨rfl, rfl⟩, htarget, ?_, setPc_unchangedBut_pc s _⟩
  rw [State.setPc_pc, htarget]
  omega

theorem setI_unchangedBut_i (s : State) (a : Word) : UnchangedBut (fun e => e = .i) s (s.setI a) := by
  intro e he
  cases e with
  | i => exact absurd rfl he
  | _ => rfl

/-- Settles O38: a 12-bit address fits I as it is. -/
theorem loadIndex : Obligations.LoadIndex := fun nnn s =>
  ⟨s.setI (zextAddr nnn), ⟨rfl, rfl⟩, zextAddr_toNat nnn, setI_unchangedBut_i s _⟩

end Sys2Proof.Machine

/-! Clear and draw (spec/44_display.md R170 to R173): CLS writes pixels alone, a draw the pixels its sprite covers and
VF. -/

namespace Sys2Proof.Machine

/-! ## Clear -/

theorem clearDisplay_unchangedBut (s : State) :
    UnchangedBut (fun e => ∃ x y, e = .pixel x y) s s.clearDisplay := by
  intro e he
  cases e with
  | pixel x y => exact absurd ⟨x, y, rfl⟩ he
  | _ => rfl

/-- Settles O41: CLS is the display cleared. -/
theorem clearScreen : Obligations.ClearScreen := fun _ s =>
  ⟨s.clearDisplay, ⟨rfl, rfl⟩, s.clearDisplay_pixel, clearDisplay_unchangedBut s⟩

/-! ## One draw -/

/-- `t` is `s` after the sprite of `n` rows at I is drawn at column `cx` and row `cy` (R171 to R173). -/
structure Draws (cx cy : Byte) (n : Nat) (s t : State) : Prop where
  toggled  : ∀ px py, s.covered cx cy n px py → t.pixel px py = !s.pixel px py
  kept     : ∀ px py, ¬ s.covered cx cy n px py → t.pixel px py = s.pixel px py
  collides : (∃ px py, s.covered cx cy n px py ∧ s.pixel px py = true) → t.readV regF = 1
  misses   : (∀ px py, s.covered cx cy n px py → s.pixel px py = false) → t.readV regF = 0
  frame    : UnchangedBut (fun e => e = .v regF ∨ ∃ px py, e = .pixel px py) s t

theorem drawPixels_writeV_unchangedBut (s : State) (ps : List (Fin 64 × Fin 32)) (b : Byte) :
    UnchangedBut (fun e => e = .v regF ∨ ∃ px py, e = .pixel px py) s ((s.drawPixels ps).1.writeV regF b) := by
  intro e he
  cases e with
  | v z =>
    have hz : z ≠ regF := fun hz => he (.inl (congrArg Elem.v hz))
    exact (readV_writeV_regF_of_ne _ b hz).trans (s.drawPixels_readV ps z)
  | pixel px py => exact absurd (.inr ⟨px, py, rfl⟩) he
  | _ => rw [State.drawPixels_eq]; rfl

/-- Distinct pixels that are the ones the sprite covers, drawn, with VF the collision flag. -/
theorem drawPixels_draws {s : State} {cx cy : Byte} {n : Nat} {ps : List (Fin 64 × Fin 32)} (hnodup : ps.Nodup)
    (hmem : ∀ px py, (px, py) ∈ ps ↔ s.covered cx cy n px py) :
    Draws cx cy n s ((s.drawPixels ps).1.writeV regF (flagByte (s.drawPixels ps).2)) where
  toggled px py hon := by
    rw [State.writeV_pixel, s.drawPixels_pixel ps hnodup, if_pos ((hmem px py).mpr hon)]
  kept px py hoff := by
    rw [State.writeV_pixel, s.drawPixels_pixel ps hnodup, if_neg (mt (hmem px py).mp hoff)]
  collides := by
    rintro ⟨px, py, hon, hlit⟩
    have hflag := (s.drawPixels_collision ps hnodup).mpr ⟨(px, py), (hmem px py).mpr hon, hlit⟩
    rw [readV_writeV_regF_same, hflag]
    rfl
  misses hdark := by
    have hflag : (s.drawPixels ps).2 = false := by
      refine Bool.eq_false_iff.mpr fun hc => ?_
      obtain ⟨⟨px, py⟩, hp, hlit⟩ := (s.drawPixels_collision ps hnodup).mp hc
      exact Bool.eq_false_iff.mp (hdark px py ((hmem px py).mp hp)) hlit
    rw [readV_writeV_regF_same, hflag]
    rfl
  frame := drawPixels_writeV_unchangedBut s ps _

theorem drw_draws (x y : Reg) (n : Nibble) (s : State) (hr : s.dataInRange n.toNat) :
    ∃ t, Completes (.drw x y n) s t ∧ Draws (s.coordV x) (s.coordV y) n.toNat s t := by
  obtain ⟨ps, hnodup, hmem, hexec⟩ := execDrw_inRange x y n s hr
  exact ⟨_, ⟨hexec, s.drawPixels_fault ps⟩, drawPixels_draws hnodup hmem⟩

/-- Settles O42: the coordinates are those `coordV` reads. -/
theorem drawXorsTheSprite : Obligations.DrawXorsTheSprite := by
  intro x y n s hr coord on
  have hcoord : ∀ z, coord z = s.coordV z := fun z => (s.coordV_eq z).symm
  obtain ⟨t, hc, ⟨htoggled, hkept, hcollides, hmisses, hframe⟩⟩ := drw_draws x y n s hr
  simp only [on, hcoord]
  exact ⟨t, hc, htoggled, hkept, hcollides, hmisses, hframe⟩

/-! ## Two draws of the same sprite -/

theorem State.coordV_of_ne_regF (s : State) {z : Reg} (hz : z ≠ regF) : s.coordV z = s.readV z := by
  rw [State.coordV_eq, if_neg fun h => hz h.2]

/-- A sprite with a set bit covers a pixel. -/
theorem State.exists_covered (s : State) (cx cy : Byte) {n r : Nat} (hr : r < n)
    (hbyte : s.readByte ((s.i.toNat + r) % 0x1000) ≠ 0) : ∃ px py, s.covered cx cy n px py := by
  obtain ⟨b, hb, hset⟩ : ∃ b < 8, (s.readByte ((s.i.toNat + r) % 0x1000)).getLsbD b = true := by
    by_contra! hclear
    exact hbyte (BitVec.eq_of_getLsbD_eq fun b hb => by
      rw [Bool.eq_false_iff.mpr (hclear b hb), BitVec.ofNat_eq_ofNat, BitVec.getLsbD_zero])
  have hbit : 7 - (7 - b) = b := by omega
  exact ⟨columnOf (cx.toNat % 64 + (7 - b)), rowOf (cy.toNat % 32 + r), r, hr, 7 - b, by omega,
    by rw [hbit, hset], rfl, rfl⟩

section TwoDraws

variable {cx cy : Byte} {n : Nat} {s t u : State}

/-- A draw writes neither I nor memory, so the same sprite covers the same pixels after it. -/
theorem Draws.covered_iff (h : Draws cx cy n s t) (px : Fin 64) (py : Fin 32) :
    t.covered cx cy n px py ↔ s.covered cx cy n px py := by
  have hi : t.i = s.i := h.frame .i (by simp)
  have hbyte : ∀ a, t.readByte a = s.readByte a := fun a => h.frame (.byte a) (by simp)
  simp only [State.covered, hi, hbyte]

/-- A pixel toggled twice is as it was, and so is one toggled never. -/
theorem Draws.disp_of_twice (h₁ : Draws cx cy n s t) (h₂ : Draws cx cy n t u) : u.disp = s.disp := by
  refine State.disp_ext s u fun px py => ?_
  by_cases hon : s.covered cx cy n px py
  · rw [h₂.toggled px py ((h₁.covered_iff px py).mpr hon), h₁.toggled px py hon, Bool.not_not]
  · rw [h₂.kept px py (mt (h₁.covered_iff px py).mp hon), h₁.kept px py hon]

/-- The second draw collides where the first turned a pixel on. -/
theorem Draws.collides_again (h₁ : Draws cx cy n s t) (h₂ : Draws cx cy n t u)
    (hoff : ∃ px py, s.covered cx cy n px py ∧ s.pixel px py = false) : u.readV regF = 1 := by
  obtain ⟨px, py, hon, hdark⟩ := hoff
  exact h₂.collides ⟨px, py, (h₁.covered_iff px py).mpr hon, by rw [h₁.toggled px py hon, hdark]; rfl⟩

/-- The second draw misses when the first turned every covered pixel off. -/
theorem Draws.misses_again (h₁ : Draws cx cy n s t) (h₂ : Draws cx cy n t u)
    (hlit : ∀ px py, s.covered cx cy n px py → s.pixel px py = true) : u.readV regF = 0 := by
  refine h₂.misses fun px py hon => ?_
  have hon' := (h₁.covered_iff px py).mp hon
  rw [h₁.toggled px py hon', hlit px py hon']
  rfl

end TwoDraws

/-- The draw whose coordinates are not in VF. -/
theorem drw_draws_of_ne_regF {x y : Reg} (n : Nibble) (s : State) (hr : s.dataInRange n.toNat) (hx : x ≠ regF)
    (hy : y ≠ regF) : ∃ t, Completes (.drw x y n) s t ∧ Draws (s.readV x) (s.readV y) n.toNat s t := by
  have h := drw_draws x y n s hr
  rwa [s.coordV_of_ne_regF hx, s.coordV_of_ne_regF hy] at h

/-- Settles O43: the first draw leaves the coordinates, I and memory, so the second draws the same sprite at the
same place. -/
theorem drawTwiceRestores : Obligations.DrawTwiceRestores := by
  intro x y n s hr hx hy on
  obtain ⟨t, hct, hst⟩ := drw_draws_of_ne_regF n s hr hx hy
  have hi : t.i = s.i := hst.frame .i (by simp)
  have hparams : t.params = s.params := hst.frame .params (by simp)
  have hvx : t.readV x = s.readV x := hst.frame (.v x) (by simp [hx])
  have hvy : t.readV y = s.readV y := hst.frame (.v y) (by simp [hy])
  have hrt : t.dataInRange n.toNat := by rwa [State.dataInRange, hi, hparams]
  obtain ⟨u, hcu, htu⟩ := drw_draws_of_ne_regF n t hrt hx hy
  rw [hvx, hvy] at htu
  refine ⟨t, u, hct, hcu, hst.disp_of_twice htu, hst.collides_again htu, hst.misses_again htu, ?_⟩
  rintro hclear ⟨r, hrn, hbyte⟩
  obtain ⟨px, py, hon⟩ := s.exists_covered (s.readV x) (s.readV y) hrn hbyte
  exact hst.collides_again htu ⟨px, py, hon, hclear px py⟩

end Sys2Proof.Machine

/-! Keypad (spec/45_keypad.md R190 to R193): the skips by the key that Vx names, Fx0A by the lowest pressed key, and
the wait of Fx0A with no key pressed, any number of cycles long. -/

namespace Sys2Proof.Machine

/-! ## Skips on a key -/

theorem exec_skp_of_key (x : Reg) (n : Nibble) (s : State) (k : Fin 16)
    (h : keyIndex s.params.keyOob (s.readV x) = .ok k) : exec (.skp x n) s = .next (s.skipIf s.keys[k]) := by
  simp only [exec, execSkp, h]

theorem exec_sknp_of_key (x : Reg) (n : Nibble) (s : State) (k : Fin 16)
    (h : keyIndex s.params.keyOob (s.readV x) = .ok k) : exec (.sknp x n) s = .next (s.skipIf !s.keys[k]) := by
  simp only [exec, execSknp, h]

theorem skp_raises (x : Reg) (n : Nibble) (s : State) (a : Nat)
    (h : keyIndex s.params.keyOob (s.readV x) = .error a) : Raises (.skp x n) s .keyIndexOutOfRange (some a) := by
  simp only [Raises, exec, execSkp, h, State.raise_eq]

theorem sknp_raises (x : Reg) (n : Nibble) (s : State) (a : Nat)
    (h : keyIndex s.params.keyOob (s.readV x) = .error a) : Raises (.sknp x n) s .keyIndexOutOfRange (some a) := by
  simp only [Raises, exec, execSknp, h, State.raise_eq]

/-- An instruction that skips on a condition completes with PC by that condition and the frame. -/
theorem completes_skipIf {i : Instr} {s : State} {c : Bool} (h : exec i s = .next (s.skipIf c)) :
    ∃ t, Completes i s t ∧ t.pc = (if c then s.pc + 2 else s.pc) ∧ UnchangedBut (fun e => e = .pc) s t :=
  ⟨_, ⟨h, s.skipIf_fault c⟩, s.skipIf_pc c, skipIf_unchangedBut_pc s c⟩

/-- Settles O44: by what `keyIndex` makes of Vx; the condition of SKNP is that of SKP negated. -/
theorem skipOnKey : Obligations.SkipOnKey := by
  intro x n s
  refine ⟨fun k hk => ?_, fun ho hlt => ?_⟩
  · have hkey : keyIndex s.params.keyOob (s.readV x) = .ok k := keyIndex_ok _ _ k hk
    refine ⟨completes_skipIf (exec_skp_of_key x n s k hkey), ?_⟩
    obtain ⟨t, hc, hpc, hframe⟩ := completes_skipIf (exec_sknp_of_key x n s k hkey)
    simp only [Bool.not_eq_true', ← Bool.not_eq_true, ite_not] at hpc
    exact ⟨t, hc, hpc, hframe⟩
  · have herror : keyIndex s.params.keyOob (s.readV x) = .error (s.readV x).toNat := by
      rw [ho]
      exact keyIndex_fault _ hlt
    exact ⟨skp_raises x n s _ herror, sknp_raises x n s _ herror⟩

/-! ## Fx0A -/

theorem exec_ldVxK_of_lowest (x : Reg) (s : State) (k : Fin 16) (h : lowestKey s.keys = some k) :
    exec (.ldVxK x) s = .next (s.writeV x (BitVec.ofNat 8 k.val)) := by
  simp only [exec, execLdVxK, h]

theorem exec_ldVxK_of_no_key (x : Reg) (s : State) (h : ∀ j : Fin 16, s.keys[j] = false) :
    exec (.ldVxK x) s = .next s.rewind := by
  simp only [exec, execLdVxK, lowestKey_none s.keys h]

/-- Settles O45: one register write or one write of PC, by whether a key is pressed. -/
theorem waitForKey : Obligations.WaitForKey := by
  intro x s
  refine ⟨fun k hk hlowest => ?_, fun hnone => ?_⟩
  · obtain ⟨t, hc, hv, hframe⟩ :=
      completes_writeV (exec_ldVxK_of_lowest x s k (lowestKey_some s.keys k hk hlowest))
    refine ⟨t, hc, ?_, hframe⟩
    rw [hv, BitVec.toNat_ofNat]
    omega
  · exact ⟨s.rewind, ⟨exec_ldVxK_of_no_key x s hnone, rfl⟩, rfl, setPc_unchangedBut_pc s _⟩

/-! ## Waiting -/

theorem UnchangedBut.refl (w : Elem → Prop) (s : State) : UnchangedBut w s s := by
  intro e _
  cases e <;> exact rfl

theorem UnchangedBut.trans {w : Elem → Prop} {s t u : State} (hst : UnchangedBut w s t) (htu : UnchangedBut w t u) :
    UnchangedBut w s u := by
  intro e he
  have h₁ := hst e he
  have h₂ := htu e he
  cases e <;> exact Eq.trans h₂ h₁

theorem tick_unchangedBut_timers (s : State) : UnchangedBut (fun e => e = .dt ∨ e = .st) s s.tick := by
  intro e he
  cases e with
  | dt => exact absurd (.inl rfl) he
  | st => exact absurd (.inr rfl) he
  | _ => rfl

/-- The next cycle is fetched and decoded without regard to the timers. -/
theorem State.Executes.tick {s : State} {i : Instr} (h : s.Executes i) : s.tick.Executes i := h

theorem State.advance_rewind (s : State) : s.advance.rewind = s := by
  have hpc : s.pc + 2 - 2 = s.pc := s.advance_rewind_pc
  simp only [State.rewind, State.advance, State.setPc, hpc]

/-- A waiting cycle is a tick: the rewind takes back the PC advance. -/
theorem step_of_key_wait {x : Reg} {s : State} (hi : s.Executes (.ldVxK x)) (hnone : ∀ j : Fin 16, s.keys[j] = false) :
    step s = .next s.tick := by
  rw [step_of_executes s _ hi, exec_ldVxK_of_no_key x s.advance hnone, s.advance_rewind,
    finishCycle_of_no_fault s hi.1]

theorem run_succ_of_step {s u : State} (k : Nat) (h : step s = .next u) : core.run (k + 1) s = core.run k u := by
  have hcore : core.step s = .next u := h
  simp only [Host.Core.run, hcore]

/-- Settles O46: each strobe is a tick, after which the core waits again. -/
theorem keyWaitRepeats : Obligations.KeyWaitRepeats := by
  intro k
  induction k with
  | zero => exact fun x s hi _ => ⟨s, rfl, hi, rfl, rfl, UnchangedBut.refl _ s⟩
  | succ k ih =>
    intro x s hi hnone
    obtain ⟨t, hrun, ht, hdt, hst, hframe⟩ := ih x s.tick hi.tick hnone
    rw [State.tick_dt, tickByte_toNat] at hdt
    rw [State.tick_st, tickByte_toNat] at hst
    exact ⟨t, (run_succ_of_step k (step_of_key_wait hi hnone)).trans hrun, ht, by omega, by omega,
      (tick_unchangedBut_timers s).trans hframe⟩

end Sys2Proof.Machine

/-! Timers, index arithmetic, BCD and block transfers (spec/46_timer_index_memory.md R200 to R210): each completed
handler is one update of the state, and nothing else changes. -/

namespace Sys2Proof.Machine

/-! ## Timers -/

theorem setDt_unchangedBut_dt (s : State) (b : Byte) : UnchangedBut (fun e => e = .dt) s (s.setDt b) := by
  intro e he
  cases e with
  | dt => exact absurd rfl he
  | _ => rfl

theorem setSt_unchangedBut_st (s : State) (b : Byte) : UnchangedBut (fun e => e = .st) s (s.setSt b) := by
  intro e he
  cases e with
  | st => exact absurd rfl he
  | _ => rfl

/-- Settles O48: each handler is the one update of its timer. -/
theorem setTimers : Obligations.SetTimers := fun x s =>
  ⟨⟨s.setDt (s.readV x), ⟨rfl, rfl⟩, rfl, setDt_unchangedBut_dt s _⟩,
    ⟨s.setSt (s.readV x), ⟨rfl, rfl⟩, rfl, setSt_unchangedBut_st s _⟩⟩

/-- Settles O47: the handler copies DT, which neither the PC advance before it nor the handler changes; the tick after
it takes DT down and leaves Vx. -/
theorem readDelayTimer : Obligations.ReadDelayTimer := by
  intro x s
  refine ⟨completes_writeV rfl, fun t hc => ?_⟩
  obtain ⟨-, u, he, -, rfl⟩ := hc.inv
  cases he
  have hv : (s.advance.writeV x s.dt).readV x = s.dt := (s.advance.writeV_readV x x s.dt).trans (if_pos rfl)
  exact ⟨hv, tickByte_toNat s.dt⟩

/-! ## Index arithmetic -/

/-- A glyph address of any byte fits 16 bits: the largest is 0x50 + 5 * 0xFF. -/
theorem glyphAddr_toNat (b : Byte) :
    (BitVec.ofNat 16 (Config.fontBase + Config.glyphBytes * b.toNat)).toNat = 0x050 + 5 * b.toNat :=
  Nat.mod_eq_of_lt (by have := b.isLt; unfold Config.fontBase Config.glyphBytes; omega)

/-- Settles O39: the 16-bit sum wraps, the glyph address does not. -/
theorem indexArithmetic : Obligations.IndexArithmetic := by
  intro x s
  refine ⟨⟨s.setI (s.i + zextByte (s.readV x)), ⟨rfl, rfl⟩, ?_, setI_unchangedBut_i s _⟩,
    ⟨s.setI _, ⟨rfl, rfl⟩, glyphAddr_toNat (s.readV x), setI_unchangedBut_i s _⟩⟩
  rw [State.setI_i, BitVec.toNat_add, zextByte_toNat]

/-! ## Stores at I -/

/-- A store from I writes the bytes at its addresses and nothing else. -/
theorem storeAtI_unchangedBut (s : State) (bs : List Byte) (hn : bs.length ≤ 16)
    (hwf : Memory.wf s.params.fontTable s.mem = true) :
    UnchangedBut (fun e => ∃ k < bs.length, e = .byte ((s.i.toNat + k) % 0x1000)) s
      (s.writeBytes (s.cellsAtI bs)) := by
  intro e he
  cases e with
  | byte a =>
    obtain ⟨-, hkept, -⟩ := s.storeAtI bs hn hwf
    exact hkept a fun ⟨k, hk, ha⟩ => he ⟨k, hk, congrArg Elem.byte ha⟩
  | _ => rw [State.writeBytes_eq]; rfl

theorem exec_ldB_of_inRange (x : Reg) (s : State) (hr : s.dataInRange 3) :
    exec (.ldB x) s = .next (s.writeBytes (s.cellsAtI (bcdDigits (s.readV x)))) := by
  simp only [exec, execLdB, s.checkedAddrs_ok _ hr, State.cellsAtI, bcdDigits_length]

/-- The BCD digits are exact: each fits its byte. -/
theorem bcdDigits_toNat (b : Byte) :
    (bcdDigits b)[0].toNat = b.toNat / 100 ∧ (bcdDigits b)[1].toNat = b.toNat / 10 % 10 ∧
      (bcdDigits b)[2].toNat = b.toNat % 10 := by
  have hb := b.isLt
  exact ⟨Nat.mod_eq_of_lt (by omega), Nat.mod_eq_of_lt (by omega), Nat.mod_eq_of_lt (by omega)⟩

/-- Settles O49: the three digits are stored at I, I+1 and I+2. -/
theorem storeBcd : Obligations.StoreBcd := by
  intro x s hwf hr v addr
  obtain ⟨hundreds, tens, ones⟩ := bcdDigits_toNat (s.readV x)
  have hlen : (bcdDigits (s.readV x)).length ≤ 16 := by simp
  obtain ⟨hstored, -, -⟩ := s.storeAtI (bcdDigits (s.readV x)) hlen hwf
  exact ⟨_, ⟨exec_ldB_of_inRange x s hr, s.writeBytes_fault _⟩,
    (congrArg BitVec.toNat (hstored 0 (by simp))).trans hundreds,
    (congrArg BitVec.toNat (hstored 1 (by simp))).trans tens,
    (congrArg BitVec.toNat (hstored 2 (by simp))).trans ones,
    storeAtI_unchangedBut s (bcdDigits (s.readV x)) hlen hwf⟩

/-- Settles O50: V0..Vx are stored from I, the register of each index at that offset. -/
theorem blockStore : Obligations.BlockStore := by
  intro x s hwf hr addr
  have hlen : (s.valuesUpTo x).length = x.val + 1 := s.valuesUpTo_length x
  have hframe := storeAtI_unchangedBut s (s.valuesUpTo x) (by omega) hwf
  simp only [hlen, Nat.lt_succ_iff] at hframe
  exact ⟨_, ⟨exec_ldMemVx_of_inRange x s hr, s.writeBytes_fault _⟩,
    fun j hj => writeBytes_valuesUpTo_readByte s x j hwf hj, hframe⟩

/-! ## Loads from I -/

/-- V0..Vx, each with the byte Fx65 loads into it. -/
def State.loadsUpTo (s : State) (x : Reg) : List (Reg × Byte) :=
  (regsUpTo x).map fun j => (j, s.readByte ((s.i.toNat + j.val) % 0x1000))

theorem State.loadsUpTo_eq_zip (s : State) (x : Reg) :
    s.loadsUpTo x =
      (regsUpTo x).zip (((List.range' s.i.toNat (x.val + 1)).map (· % 0x1000)).map s.readByte) := by
  refine List.ext_getElem (by simp [State.loadsUpTo]) fun k hk _ => ?_
  have hreg := regsUpTo_getElem x k (by simpa [State.loadsUpTo] using hk)
  simp [State.loadsUpTo, hreg]

theorem exec_ldVxMem_of_inRange (x : Reg) (s : State) (hr : s.dataInRange (x.val + 1)) :
    exec (.ldVxMem x) s = .next (s.writeVs (s.loadsUpTo x)) := by
  simp only [exec, execLdVxMem, s.checkedAddrs_ok _ hr, s.loadsUpTo_eq_zip]

theorem State.loadsUpTo_nodup (s : State) (x : Reg) : ((s.loadsUpTo x).map Prod.fst).Nodup := by
  have hregs : (s.loadsUpTo x).map Prod.fst = regsUpTo x := by simp [State.loadsUpTo, Function.comp_def]
  rw [hregs]
  exact regsUpTo_nodup x

theorem writeVs_loadsUpTo_readV (s : State) (x j : Reg) (hj : j ≤ x) :
    (s.writeVs (s.loadsUpTo x)).readV j = s.readByte ((s.i.toNat + j.val) % 0x1000) :=
  s.writeVs_readV_of_mem _ _ (s.loadsUpTo_nodup x) (List.mem_map_of_mem ((mem_regsUpTo x j).mpr hj))

/-- Loads of registers up to `x` change no other element. -/
theorem writeVs_unchangedBut_upTo (s : State) (x : Reg) (cells : List (Reg × Byte)) (hle : ∀ c ∈ cells, c.1 ≤ x) :
    UnchangedBut (fun e => ∃ j : Reg, j ≤ x ∧ e = .v j) s (s.writeVs cells) := by
  intro e he
  cases e with
  | v z => exact s.writeVs_readV_of_notMem cells z fun c hc hz => he ⟨z, hz ▸ hle c hc, rfl⟩
  | _ => rw [State.writeVs_eq]; rfl

theorem State.loadsUpTo_le (s : State) (x : Reg) : ∀ c ∈ s.loadsUpTo x, c.1 ≤ x := by
  intro c hc
  obtain ⟨j, hj, rfl⟩ := List.mem_map.mp hc
  exact (mem_regsUpTo x j).mp hj

/-- Settles O51: each register up to Vx is written once, with the byte at its own address. -/
theorem blockLoad : Obligations.BlockLoad := fun x s hr =>
  ⟨_, ⟨exec_ldVxMem_of_inRange x s hr, s.writeVs_fault _⟩, fun j hj => writeVs_loadsUpTo_readV s x j hj,
    writeVs_unchangedBut_upTo s x _ (s.loadsUpTo_le x)⟩

/-- Settles O53: the load forms the addresses of the store, which changes neither I nor the parameters, and reads the
bytes stored there. -/
theorem loadAfterStore : Obligations.LoadAfterStore := by
  intro x s t u hwf hr hc hi hmem hparams
  obtain ⟨hexec, -⟩ := hc
  rw [exec_ldMemVx_of_inRange x s hr] at hexec
  cases hexec
  have hi' : u.i = s.i := hi.trans (s.writeBytes_i _)
  have hparams' : u.params = s.params := hparams.trans (s.writeBytes_params _)
  have hru : u.dataInRange (x.val + 1) := by rwa [State.dataInRange, hi', hparams']
  obtain ⟨w, hw, hloaded, -⟩ := blockLoad x u hru
  refine ⟨w, hw, fun j hj => ?_⟩
  rw [hloaded j hj, State.readByte_congr hmem hparams, hi']
  exact writeBytes_valuesUpTo_readByte s x j hwf hj

end Sys2Proof.Machine

/-! Faults and timers over whole cycles (spec/60_exceptions.md R231 to R240): a recorded fault changes nothing but the
record, a halted core stays as it is, and each completed cycle takes a timer that it does not set down by one. -/

namespace Sys2Proof.Machine

/-! ## Faults -/

/-- Settles O13: of the three things a strobe can have done (`step_next`), only taking a fault leaves a core that was
running with a record. -/
theorem faultingCycleIsPrecise : Obligations.FaultingCycleIsPrecise := by
  intro s t r hs hstep ht
  obtain ⟨hhalted, -⟩ | ⟨-, r', rfl, hpc, hr⟩ | ⟨i, u, -, -, hu, rfl⟩ := step_next s t hstep
  · exact absurd hs hhalted
  · cases ht
    exact ⟨rfl, hpc, hr⟩
  · rw [State.tick_fault, hu] at ht
    cases ht

/-- Settles O12: each strobe answers the halted core itself. -/
theorem haltedCoreIsFrozen : Obligations.HaltedCoreIsFrozen := by
  intro n
  induction n with
  | zero => exact fun _ _ _ => rfl
  | succ n ih =>
    intro s r hs
    exact (run_succ_of_step n (step_of_halted s r hs)).trans (ih s r hs)

/-! ## Timers -/

/-- A completed cycle is a handler that completes after the PC advance, and then the tick. -/
theorem Cycle.completes {s t : State} {i : Instr} (h : Cycle s i t) :
    ∃ u, Completes i s.advance u ∧ t = u.tick := by
  obtain ⟨hs, u, he, hu, rfl⟩ := h.inv
  exact ⟨u, ⟨he, hu.trans hs.symm⟩, rfl⟩

theorem Completes.dt_eq {i : Instr} {s t : State} (h : Completes i s t) (hi : ∀ x, i ≠ .ldDtVx x) : t.dt = s.dt := by
  obtain ⟨-, -, hdt, -⟩ := onlyTheNamedInstructionsWrite i s t h
  by_contra hne
  obtain ⟨x, hx⟩ := hdt hne
  exact hi x hx

theorem Completes.st_eq {i : Instr} {s t : State} (h : Completes i s t) (hi : ∀ x, i ≠ .ldStVx x) : t.st = s.st := by
  obtain ⟨-, -, -, hst, -⟩ := onlyTheNamedInstructionsWrite i s t h
  by_contra hne
  obtain ⟨x, hx⟩ := hst hne
  exact hi x hx

theorem Cycle.dt_toNat {s t : State} {i : Instr} (h : Cycle s i t) (hi : ∀ x, i ≠ .ldDtVx x) :
    t.dt.toNat = s.dt.toNat - 1 := by
  obtain ⟨u, hc, rfl⟩ := h.completes
  rw [State.tick_dt, tickByte_toNat, hc.dt_eq hi, State.advance_dt]

theorem Cycle.st_toNat {s t : State} {i : Instr} (h : Cycle s i t) (hi : ∀ x, i ≠ .ldStVx x) :
    t.st.toNat = s.st.toNat - 1 := by
  obtain ⟨u, hc, rfl⟩ := h.completes
  rw [State.tick_st, tickByte_toNat, hc.st_eq hi, State.advance_st]

/-- Fx15: the value just written is ticked (decision D14). -/
theorem Cycle.dt_toNat_of_ldDtVx {s t : State} {x : Reg} (h : Cycle s (.ldDtVx x) t) :
    t.dt.toNat = (s.readV x).toNat - 1 := by
  obtain ⟨u, ⟨he, -⟩, rfl⟩ := h.completes
  cases he
  exact tickByte_toNat (s.readV x)

/-- Fx18: the value just written is ticked (decision D14). -/
theorem Cycle.st_toNat_of_ldStVx {s t : State} {x : Reg} (h : Cycle s (.ldStVx x) t) :
    t.st.toNat = (s.readV x).toNat - 1 := by
  obtain ⟨u, ⟨he, -⟩, rfl⟩ := h.completes
  cases he
  exact tickByte_toNat (s.readV x)

/-- Settles O18: for each timer, by whether the instruction is the one that sets it. -/
theorem timersAfterACycle : Obligations.TimersAfterACycle := by
  intro s t i hc
  constructor
  · split
    · exact hc.dt_toNat_of_ldDtVx
    · next hi => exact hc.dt_toNat hi
  · split
    · exact hc.st_toNat_of_ldStVx
    · next hi => exact hc.st_toNat hi

/-- Settles O19, by induction on the number of cycles. -/
theorem delayTimerCountsCycles : Obligations.DelayTimerCountsCycles := by
  intro n
  induction n with
  | zero =>
    rintro s t ⟨-, rfl⟩
    rfl
  | succ n ih =>
    rintro s t ⟨i, u, hc, hi, hrun⟩
    have hfirst : u.dt.toNat = s.dt.toNat - 1 := hc.dt_toNat hi
    have hrest : t.dt.toNat = u.dt.toNat - n := ih u t hrun
    omega

end Sys2Proof.Machine

/-! Boot (spec/70_reset_and_hazards.md R271 to R275): loading the font into zeroed memory gives the power-on state, so a
boot is one run of bytes stored into that state, or an error. -/

namespace Sys2Proof.Machine

/-! ## A run of bytes stored inside memory -/

/-- The frame of storing a run of bytes: nothing outside the run changes. -/
theorem storeRun_unchangedBut (s : State) (base : Nat) (bytes : List Byte) (hb : base + bytes.length ≤ 0x1000)
    (hwf : Memory.wf s.params.fontTable s.mem = true) :
    UnchangedBut (fun e => ∃ j < bytes.length, e = .byte (base + j)) s (s.writeBytes (cellsFrom base bytes)) := by
  intro e he
  cases e with
  | byte a =>
    obtain ⟨-, hkept, -⟩ := s.storeRun base bytes hb hwf
    have hout : a < base ∨ base + bytes.length ≤ a := by
      by_contra hin
      exact he ⟨a - base, by omega, congrArg Elem.byte (by omega)⟩
    exact hkept a hout
  | _ => rw [State.writeBytes_eq]; rfl

theorem State.Legal.storeRun {s : State} (hs : s.Legal) (base : Nat) (bytes : List Byte)
    (hb : base + bytes.length ≤ 0x1000) : (s.writeBytes (cellsFrom base bytes)).Legal := by
  obtain ⟨-, -, hwf⟩ := s.storeRun base bytes hb hs.mem_wf
  exact {
    sp_le := by rw [State.writeBytes_sp]; exact hs.sp_le
    mem_wf := by rw [State.writeBytes_params]; exact hwf
    record_ok := by rw [State.writeBytes_fault, State.writeBytes_pc]; exact hs.record_ok }

/-! ## What a boot answers -/

theorem boot_of_fits (p : Params) {image : List Byte} (h : image.length ≤ 3584) :
    boot p (some image) = .ok ((State.powerOn p).writeBytes (cellsFrom 0x200 image)) := by
  simp only [boot, State.loadFont_zeroed, State.loadProgram]
  exact if_pos h

theorem boot_of_tooLong (p : Params) {image : List Byte} (h : 3584 < image.length) :
    boot p (some image) = .error .romTooLarge := by
  simp only [boot, State.loadProgram]
  exact if_neg (Nat.not_le_of_lt h)

/-- Settles O57: the program is stored into the power-on state, above its font. -/
theorem bootLoadsFontAndProgram : Obligations.BootLoadsFontAndProgram := by
  intro p image hlen
  have hb : 0x200 + image.length ≤ 0x1000 := by omega
  have hwf := State.powerOn_mem_wf p
  obtain ⟨hprog, hkept, -⟩ := (State.powerOn p).storeRun 0x200 image hb hwf
  obtain ⟨hfont, hzero, -⟩ := resetMemoryAndPorts p
  refine ⟨fun a _ => State.zeroed_readByte p a, _, boot_of_fits p hlen, fun j => ?font, hprog, fun a ha => ?zero,
    storeRun_unchangedBut _ 0x200 image hb hwf, (State.powerOn_legal p).storeRun 0x200 image hb, ?empty⟩
  case font => rw [hkept (0x050 + j.val) (by omega), hfont j]
  case zero => rw [hkept a (by omega), hzero a (by omega)]
  case empty =>
    rintro rfl
    exact State.writeBytes_nil _

/-- Settles O58: the length is checked before anything is stored, and there is nothing to check in a program that
cannot be read. -/
theorem bootErrors : Obligations.BootErrors := fun p =>
  ⟨fun _ h => boot_of_tooLong p h, rfl, nofun⟩

end Sys2Proof.Machine
